-- ==== Sys2Proof/Word.lean ====
section
/-! DEFINITION. Bit strings and character strings, the two kinds of data of this hardware (spec/00_scope.md R8). -/

namespace Sys2Proof

/-- A character string: a source line, a token, a label name (R9). Characters are abstract (92 D10). -/
abbrev Text := List Char

/-- A bit string, written left to right, the leftmost character first (R8). -/
abbrev Bits := List Bool

/-- `zeros(n)`: `n` copies of `0` (R8). -/
def zeros (n : Nat) : Bits := List.replicate n false

/-- `val(s)`: the number a bit string denotes in base 2, leftmost most significant (R8). -/
def valBits (s : Bits) : Nat := s.foldl (fun v b => 2 * v + b.toNat) 0

/-- The bits of a fixed-width code, bit `n-1` leftmost (R8). -/
def bitsOf {n : Nat} (c : BitVec n) : Bits := (List.range n).map c.getMsbD

/-- A 16-character string read as a 16-bit word, its leftmost character bit 15 (R8, R49; 92 D12). -/
def word16Of (s : Bits) : BitVec 16 := BitVec.ofNat 16 (valBits s)

end Sys2Proof
end

