-- ==== Sys2Proof/Config.lean ====
section
/-! DEFINITION. What is fixed for the machine: the parameters of R5 and the open tables of R6. -/

namespace Sys2Proof

/-! ### The fixed parameters of spec/00_scope.md R5 -/

namespace Config

/-- `W_WORD`: bits in an instruction word (R5). -/
@[simp] abbrev wWord : Nat := 16
/-- `W_REG`: bits a register operand always produces (R5). -/
@[simp] abbrev wReg : Nat := 4
/-- `W_NARROW`: operand width of `ADI` and `CMPJ` (R5). -/
@[simp] abbrev wNarrow : Nat := 4
/-- `W_WIDE`: operand width of every other mnemonic (R5). -/
@[simp] abbrev wWide : Nat := 8
/-- `W_GAP`: bits of zero filler of `INC` and `DEC` (R5). -/
@[simp] abbrev wGap : Nat := 4
/-- `WRAP_CONST`: added to a negative raw relative offset (R5, R97). -/
@[simp] abbrev wrapConst : Int := 15
/-- `MIN_LABEL_LEN`: least number of characters in a label name (R5). -/
@[simp] abbrev minLabelLen : Nat := 2
/-- `DEPTH`: words in the output image (R5). -/
@[simp] abbrev depth : Nat := 256

end Config

/-! ### The open tables of R6 -/

/-- One mnemonic of the open set `EXTRA`, with its code and its arity (R6). -/
structure ExtraRow where
  name  : Text
  code  : BitVec 4
  arity : Nat
  deriving DecidableEq, Repr

/-- The open part of the tables `OPC` and `ARITY` (R6): the codes of six mnemonics, the arities of two, and `EXTRA`.
One list of rows gives `EXTRA` its codes and its arities, so that the two tables have one domain (92 D4). -/
structure Tables where
  pAdd  : BitVec 4
  pAdi  : BitVec 4
  pCmpj : BitVec 4
  pDec  : BitVec 4
  pInc  : BitVec 4
  pJmp  : BitVec 4
  aAdi  : Nat
  aCmpj : Nat
  extra : List ExtraRow
  deriving DecidableEq, Repr

namespace Config

/-- `P_ADD`, a code the spec leaves open (R6, 91 N1). -/
opaque pAdd : BitVec 4
/-- `P_ADI`, a code the spec leaves open (R6, 91 N1). -/
opaque pAdi : BitVec 4
/-- `P_CMPJ`, a code the spec leaves open (R6, 91 N1). -/
opaque pCmpj : BitVec 4
/-- `P_DEC`, a code the spec leaves open (R6, 91 N1). -/
opaque pDec : BitVec 4
/-- `P_INC`, a code the spec leaves open (R6, 91 N1). -/
opaque pInc : BitVec 4
/-- `P_JMP`, a code the spec leaves open (R6, 91 N1). -/
opaque pJmp : BitVec 4
/-- `A_ADI`, an operand count the spec leaves open (R6, 91 N2). -/
opaque aAdi : Nat
/-- `A_CMPJ` less one: the spec leaves the count open but for `A_CMPJ >= 1` (R6, 91 N2). -/
opaque aCmpjLessOne : Nat
/-- Candidate rows of `EXTRA`, possibly none (R6); `Machine.tables` keeps those R6 and R78 admit. -/
opaque extraRows : List ExtraRow

end Config

end Sys2Proof
end

