-- ==== Sys2Proof/Machine/Lexical.lean ====
section
/-! DEFINITION. Characters, tokens, operand classes and mnemonic names: the text primitives of spec/00_scope.md R9, the class
dispatch of spec/40_operand_encoder.md R91 and the names of R6 and R29. -/

namespace Sys2Proof

/-! ### Characters and character strings -/

/-- White space: space, tab, carriage return, vertical tab, form feed (R152, 92 D10). -/
def isSpace (c : Char) : Bool :=
  c == ' ' || c == '\t' || c == '\r' || c.toNat == 11 || c.toNat == 12

/-- A character that can stand inside a token of a cleaned line (R212 f). -/
def isTokenChar (c : Char) : Bool := !isSpace c && c != ';'

/-- `upper` on one character: the 26 ASCII letters `a` to `z` only (R9). -/
def upperChar (c : Char) : Char :=
  if 97 ≤ c.toNat ∧ c.toNat ≤ 122 then Char.ofNat (c.toNat - 32) else c

/-- `upper(t)` (R9). -/
def upper (t : Text) : Text := t.map upperChar

/-- The last character of a text is the label suffix `:` (R75, R153). -/
def endsInColon (t : Text) : Bool := t.getLast? == some ':'

/-- `starts_with(t, p)`: no case folding (R9). -/
def startsWith (p t : Text) : Bool := p.isPrefixOf t

/-- One of `0` to `9` (R9). -/
def isDecimalDigit (c : Char) : Bool := 48 ≤ c.toNat && c.toNat ≤ 57

/-- `all_decimal(t)`: not empty and every character a decimal digit (R9). -/
def allDecimal (t : Text) : Bool := !t.isEmpty && t.all isDecimalDigit

/-- The value of a hexadecimal digit, either case (R9, 92 D9). -/
def digitValue (c : Char) : Option Nat :=
  if 48 ≤ c.toNat ∧ c.toNat ≤ 57 then some (c.toNat - 48)
  else if 97 ≤ c.toNat ∧ c.toNat ≤ 102 then some (c.toNat - 87)
  else if 65 ≤ c.toNat ∧ c.toNat ≤ 70 then some (c.toNat - 55)
  else none

/-- The value of a digit of base `b`. -/
def digitOf (b : Nat) (c : Char) : Option Nat :=
  match digitValue c with
  | some d => if d < b then some d else none
  | none => none

/-- The digits of `t` in base `b`, added below `acc`. -/
def parseDigits (b : Nat) : Text → Nat → Option Nat
  | [], acc => some acc
  | c :: cs, acc =>
    match digitOf b c with
    | some d => parseDigits b cs (b * acc + d)
    | none => none

/-- `parse_base(b, t)`: fails on the empty string and on any character that is no digit of base `b` (R9). -/
def parseBase (b : Nat) (t : Text) : Option Nat :=
  match t with
  | [] => none
  | c :: cs => parseDigits b (c :: cs) 0

/-! ### Registers -/

/-- A register name, as its index: `A` = 0 to `P` = 15 (R29). -/
abbrev Reg := Fin 16

/-- The register a letter names, in either case (R29, R95). -/
def regOfChar (c : Char) : Option Reg :=
  if h : 65 ≤ (upperChar c).toNat ∧ (upperChar c).toNat ≤ 80 then
    some ⟨(upperChar c).toNat - 65, by omega⟩
  else none

/-- The register a token names: one letter `A` to `P` in either case (R91, R95). -/
def regOfToken : Text → Option Reg
  | [c] => regOfChar c
  | _ => none

/-- The upper-case letter of a register (R29). -/
def regLetter (r : Reg) : Char := Char.ofNat (65 + r.val)

/-! ### Operands -/

/-- One operand token with its class (R91). A prefixed literal keeps the text after its prefix, which need not be a number:
such a token is committed to its class and fails when it is encoded (R92, R93). -/
inductive Operand where
  /-- `0x` and the text after it (R92). -/
  | hex (digits : Text)
  /-- `0b` and the text after it (R93). -/
  | bin (digits : Text)
  /-- A run of decimal digits (R94). -/
  | dec (digits : Text)
  /-- A register name (R95). -/
  | reg (r : Reg)
  /-- Any other token: a label reference (R96, R97). -/
  | label (name : Text)
  deriving DecidableEq, Repr

/-- The class of a token, by its spelling alone, the five tests in order (R91). -/
def Operand.ofToken (t : Text) : Operand :=
  if startsWith ['0', 'x'] t then .hex (t.drop 2)
  else if startsWith ['0', 'b'] t then .bin (t.drop 2)
  else if allDecimal t then .dec t
  else
    match regOfToken t with
    | some r => .reg r
    | none => .label t

/-- A spelling of the operand; for all but registers the only one (a register's is its upper-case letter). -/
def Operand.token : Operand → Text
  | .hex d => '0' :: 'x' :: d
  | .bin d => '0' :: 'b' :: d
  | .dec d => d
  | .reg r => [regLetter r]
  | .label n => n

/-! ### Mnemonics -/

/-- The nine mnemonics the document names, and any other (R6). -/
inductive Mnemonic where
  | halt | ldi | add | adi | cmpj | dec | inc | jmp | nop
  /-- Any other upper-case mnemonic: in `EXTRA`, or in no table. -/
  | extra (name : Text)
  deriving DecidableEq, Repr

/-- The mnemonic's upper-case name (R6). -/
def Mnemonic.name : Mnemonic → Text
  | .halt => ['H', 'A', 'L', 'T']
  | .ldi => ['L', 'D', 'I']
  | .add => ['A', 'D', 'D']
  | .adi => ['A', 'D', 'I']
  | .cmpj => ['C', 'M', 'P', 'J']
  | .dec => ['D', 'E', 'C']
  | .inc => ['I', 'N', 'C']
  | .jmp => ['J', 'M', 'P']
  | .nop => ['N', 'O', 'P']
  | .extra n => n

/-- The mnemonic of an upper-case name. -/
def Mnemonic.ofName (t : Text) : Mnemonic :=
  if t = Mnemonic.halt.name then .halt
  else if t = Mnemonic.ldi.name then .ldi
  else if t = Mnemonic.add.name then .add
  else if t = Mnemonic.adi.name then .adi
  else if t = Mnemonic.cmpj.name then .cmpj
  else if t = Mnemonic.dec.name then .dec
  else if t = Mnemonic.inc.name then .inc
  else if t = Mnemonic.jmp.name then .jmp
  else if t = Mnemonic.nop.name then .nop
  else .extra t

/-- The mnemonic a token stands for: case-insensitive (R76, R121). -/
def Mnemonic.ofToken (t : Text) : Mnemonic := Mnemonic.ofName (upper t)

end Sys2Proof
end

