-- ==== Sys2Proof/Machine/Tables.lean ====
section
/-! DEFINITION. The tables OPC and ARITY (spec/00_scope.md R6, spec/30_encoding.md R71): what the document settles, and the open part. -/

namespace Sys2Proof

/-- A row the spec admits in `EXTRA`: its name is upper-case and none of the nine named mnemonics (R6), and does not end in a colon: the token
`LOOP:` of a line `LOOP: NOP` is in no table (R78). -/
def ExtraRow.admissible (r : ExtraRow) : Bool :=
  upper r.name == r.name && Mnemonic.ofName r.name == .extra r.name && !endsInColon r.name

/-- The constraints of R6 and R78 on the open part of the tables. -/
def Tables.admissible (T : Tables) : Bool :=
  decide (1 ≤ T.aCmpj) && T.extra.all ExtraRow.admissible

/-- The code and arity `EXTRA` gives a name: the first row of that name. -/
def extraLookup : List ExtraRow → Text → Option (BitVec 4 × Nat)
  | [], _ => none
  | r :: rest, n => if r.name = n then some (r.code, r.arity) else extraLookup rest n

/-- `OPC(mn)` and `ARITY(mn)`, both or neither (R6, 92 D4). `none`: the mnemonic is in no table. -/
def Tables.lookup (T : Tables) : Mnemonic → Option (BitVec 4 × Nat)
  | .halt => some (0b0000#4, 0)
  | .ldi => some (0b0001#4, 2)
  | .add => some (T.pAdd, 3)
  | .adi => some (T.pAdi, T.aAdi)
  | .cmpj => some (T.pCmpj, T.aCmpj)
  | .dec => some (T.pDec, 2)
  | .inc => some (T.pInc, 2)
  | .jmp => some (T.pJmp, 1)
  | .nop => some (0b1111#4, 0)
  | .extra n => extraLookup T.extra n

namespace Machine

/-- The machine's tables: the open constants of Config, `EXTRA` restricted to the rows the spec admits (R6, R78). -/
def tables : Tables where
  pAdd := Config.pAdd
  pAdi := Config.pAdi
  pCmpj := Config.pCmpj
  pDec := Config.pDec
  pInc := Config.pInc
  pJmp := Config.pJmp
  aAdi := Config.aAdi
  aCmpj := Config.aCmpjLessOne + 1
  extra := Config.extraRows.filter ExtraRow.admissible

end Machine

end Sys2Proof
end

