-- ==== Sys2Proof/Syntax.lean ====
section
/-! DEFINITION. The instructions: one constructor per row of spec/opcode_table.json, each a source line's mnemonic with its operand tokens
(spec/30_encoding.md R75, spec/42_two_pass_sequencer.md R153). The number of operands is not fixed here: a wrong number is an error
the instruction raises (R182), not a line that cannot be read. -/

namespace Sys2Proof

/-- An instruction line of the source. -/
inductive Instr where
  /-- `HALT` (R122). -/
  | halt (ops : List Operand)
  /-- `LDI` (R123). -/
  | ldi (ops : List Operand)
  /-- `ADD` (R124). -/
  | add (ops : List Operand)
  /-- `ADI` (R125). -/
  | adi (ops : List Operand)
  /-- `CMPJ` (R126). -/
  | cmpj (ops : List Operand)
  /-- `DEC` (R127). -/
  | dec (ops : List Operand)
  /-- `INC` (R128). -/
  | inc (ops : List Operand)
  /-- `JMP` (R129). -/
  | jmp (ops : List Operand)
  /-- `NOP` (R130). -/
  | nop (ops : List Operand)
  /-- A line under any other mnemonic, in upper case: one of `EXTRA` (R131), or of no table (R181). -/
  | extra (mn : Text) (ops : List Operand)
  deriving DecidableEq, Repr

/-- The mnemonic of an instruction. -/
def Instr.mnemonic : Instr → Mnemonic
  | .halt _ => .halt
  | .ldi _ => .ldi
  | .add _ => .add
  | .adi _ => .adi
  | .cmpj _ => .cmpj
  | .dec _ => .dec
  | .inc _ => .inc
  | .jmp _ => .jmp
  | .nop _ => .nop
  | .extra mn _ => .extra mn

/-- The operands of an instruction, in source order. -/
def Instr.operands : Instr → List Operand
  | .halt ops | .ldi ops | .add ops | .adi ops | .cmpj ops | .dec ops | .inc ops | .jmp ops | .nop ops => ops
  | .extra _ ops => ops

/-- The instruction of a mnemonic and its operands. -/
def Instr.make (mn : Mnemonic) (ops : List Operand) : Instr :=
  match mn with
  | .halt => .halt ops
  | .ldi => .ldi ops
  | .add => .add ops
  | .adi => .adi ops
  | .cmpj => .cmpj ops
  | .dec => .dec ops
  | .inc => .inc ops
  | .jmp => .jmp ops
  | .nop => .nop ops
  | .extra n => .extra n ops

end Sys2Proof
end

