-- ==== Sys2Proof/WellFormed.lean ====
section
/-! DEFINITION. Which instructions some source line stands for (spec/42_two_pass_sequencer.md R152, R153; spec/70_reset_and_hazards.md R212 f):
the tokens are made of token characters, each operand has the class its spelling gives it, and the line is no label declaration. -/

namespace Sys2Proof

/-- An operand whose spelling is one token of its own class (R91, R212 f). -/
def Operand.wellFormed : Operand → Bool
  | .hex d => d.all isTokenChar
  | .bin d => d.all isTokenChar
  | .dec d => allDecimal d
  | .reg _ => true
  | .label n => !n.isEmpty && n.all isTokenChar && Operand.ofToken n == .label n

/-- A mnemonic whose name is one token, in upper case, and is not another of the nine (R6, R76). -/
def Mnemonic.wellFormed : Mnemonic → Bool
  | .extra n => !n.isEmpty && n.all isTokenChar && upper n == n && Mnemonic.ofName n == .extra n
  | _ => true

/-- The tokens of an instruction line: the mnemonic, then the operands (R153). -/
def Instr.tokens (i : Instr) : List Text := i.mnemonic.name :: i.operands.map Operand.token

/-- The line of these tokens is no label declaration: its last token does not end in a colon (R153). -/
def Instr.notLabel (i : Instr) : Bool :=
  match i.tokens.getLast? with
  | some t => !endsInColon t
  | none => false

/-- An instruction that some source line stands for. -/
def Instr.wellFormed (i : Instr) : Bool :=
  i.mnemonic.wellFormed && i.operands.all Operand.wellFormed && i.notLabel

end Sys2Proof
end

