-- ==== Sys2Proof/Decode.lean ====
section
/-! DEFINITION. Reading a source line (spec/42_two_pass_sequencer.md R152, R153; spec/30_encoding.md R75 to R78), writing one, and the host's
table words. The machine fetches TEXT: the 16-bit words are what it writes, never what it reads. -/

namespace Sys2Proof

/-! ### Cleaning and splitting -/

/-- The text before the first `;`, wherever it stands (R152). -/
def cutComment : Text → Text
  | [] => []
  | c :: cs => if c == ';' then [] else c :: cutComment cs

/-- Without leading white space. -/
def trimLeft : Text → Text
  | [] => []
  | c :: cs => if isSpace c then trimLeft cs else c :: cs

/-- Without trailing white space. -/
def trimRight (t : Text) : Text := (trimLeft t.reverse).reverse

/-- `Clean(line)`: the comment removed, then surrounding white space (R152). -/
def clean (line : Text) : Text := trimRight (trimLeft (cutComment line))

/-- The maximal runs of non-white-space characters, in order (R153). -/
def split : Text → List Text
  | [] => []
  | c :: cs =>
    if isSpace c then split cs
    else
      match cs with
      | [] => [[c]]
      | d :: ds =>
        if isSpace d then [c] :: split (d :: ds)
        else
          match split (d :: ds) with
          | t :: ts => (c :: t) :: ts
          | [] => [[c]]

/-! ### Reading a line -/

/-- What a source line is (R153). -/
inductive Line where
  /-- Blank once cleaned: skipped (R152). -/
  | blank
  /-- A label declaration: the cleaned line without its final colon (R153). -/
  | label (name : Text)
  /-- Any other line (R153). -/
  | instr (i : Instr)
  deriving DecidableEq, Repr

/-- The instruction of a list of tokens: the first is the mnemonic (R153). A cleaned line that is not blank has one. -/
def instrOfTokens : List Text → Option Instr
  | [] => none
  | mn :: toks => some (Instr.make (Mnemonic.ofToken mn) (toks.map Operand.ofToken))

/-- Classifying a line (R152, R153): only the last character of the cleaned text decides that it declares a label. -/
def readLine (raw : Text) : Line :=
  if endsInColon (clean raw) then .label (clean raw).dropLast
  else
    match instrOfTokens (split (clean raw)) with
    | some i => .instr i
    | none => .blank

/-- Why a line is no instruction. -/
inductive DecodeError where
  /-- A blank or comment line (R152). -/
  | blankLine
  /-- A label declaration (R153). -/
  | labelDeclaration (name : Text)
  deriving DecidableEq, Repr

/-- The instruction of a source line, or the name of what it is instead; total on any text. An unknown mnemonic is not refused here:
its error is the instruction's own, raised in pass 2 only (R156, R181). -/
def decode (raw : Text) : Except DecodeError Instr :=
  match readLine raw with
  | .blank => .error .blankLine
  | .label n => .error (.labelDeclaration n)
  | .instr i => .ok i

/-! ### Writing a line -/

/-- Tokens with one space before each. -/
def spaced : List Text → Text
  | [] => []
  | t :: ts => ' ' :: (t ++ spaced ts)

/-- The source line of an instruction: its mnemonic and its operands, one space between two tokens (R75, R77). -/
def encode (i : Instr) : Text :=
  i.mnemonic.name ++ spaced (i.operands.map Operand.token)

/-! ### The words of spec/opcode_table.json

A word is OUTPUT of this machine, and one word is the encoding of many lines (R74: no decode function recovers the source
text). The host's question is answered with ONE line that assembles to the word, in the formats of R67. -/

/-- The hexadecimal digit of a 4-bit field. -/
def hexDigit (v : BitVec 4) : Char :=
  if v.toNat < 10 then Char.ofNat (48 + v.toNat) else Char.ofNat (87 + v.toNat)

/-- A 4-bit field as a register name. -/
def regToken (v : BitVec 4) : Text := [regLetter v.toFin]

/-- A line of tokens. -/
def lineOf (mn : Mnemonic) (toks : List Text) : Text := mn.name ++ spaced toks

/-- One source line that assembles to the word under the tables `T`, in the formats of R67: the codes the document gives first, then
the open codes in the table's order. `none`: no line of those formats does. -/
def tableLine (T : Tables) (w : BitVec 16) : Option Text :=
  let op := w.extractLsb' 12 4
  let a := w.extractLsb' 8 4
  let b := w.extractLsb' 4 4
  let c := w.extractLsb' 0 4
  if w = 0x0000#16 then some (lineOf .halt [])
  else if w = 0xF000#16 then some (lineOf .nop [])
  else if op = 0b0001#4 then some (lineOf .ldi [regToken a, ['0', 'x', hexDigit b, hexDigit c]])
  else if op = T.pAdd then some (lineOf .add [regToken a, regToken b, regToken c])
  else if op = T.pAdi ∧ T.aAdi = 3 then some (lineOf .adi [regToken a, regToken b, ['0', 'x', hexDigit c]])
  else if op = T.pCmpj ∧ T.aCmpj = 3 then some (lineOf .cmpj [regToken a, regToken b, ['0', 'x', hexDigit c]])
  else if op = T.pDec ∧ b = 0#4 then some (lineOf .dec [regToken a, regToken c])
  else if op = T.pInc ∧ b = 0#4 then some (lineOf .inc [regToken a, regToken c])
  else if op = T.pJmp ∧ c = 0#4 then some (lineOf .jmp [['0', 'x', hexDigit a, hexDigit b]])
  else none

/-- The line the host's word stands for: every row of the table has 16 bits (R60). -/
def tableWordLine (nbits w : Nat) : Option Text :=
  if nbits = 16 ∧ w < 65536 then tableLine Machine.tables (BitVec.ofNat 16 w) else none

/-- The host's question: the instruction the decoder reads from the line that stands for a table word. -/
def decodeTableWord (nbits w : Nat) : Option Instr :=
  match tableWordLine nbits w with
  | none => none
  | some line =>
    match decode line with
    | .ok i => some i
    | .error _ => none

end Sys2Proof
end

