-- ==== Sys2Proof/Machine/State.lean ====
section
/-! DEFINITION. The state of a run (spec/10_state.md R21), its values at reset (R33), and the reasons a step can stop. -/

namespace Sys2Proof.Machine

/-- The state machine of a run (R24, R151). -/
inductive Pass where
  /-- `PASS_LABELS`: pass 1, records label addresses. -/
  | labels
  /-- `PASS_EMIT`: pass 2, encodes and writes records. -/
  | emit
  /-- `DONE`: the run has succeeded; no successor. -/
  | done
  /-- `ABORTED`: the first error has ended the run; no successor (92 D16). -/
  | aborted
  deriving DecidableEq, Repr

/-- The eight error kinds with what each carries (spec/60_exceptions.md R180 to R188; 92 D15). -/
inductive ErrorInfo where
  /-- The upper-cased mnemonic is in no table (R181). -/
  | unknownOpcodeError (mn : Text)
  /-- Wrong number of operands (R182). -/
  | arityError (mn : Text) (got expected : Nat)
  /-- A prefixed literal that is no number (R183). -/
  | encodingError (token : Text)
  /-- A label operand that is not in the Label Table (R184). -/
  | labelError (name : Text)
  /-- A relative label operand behind the current pc (R185). -/
  | negativeJumpError (name : Text)
  /-- A second declaration of a name (R186). -/
  | duplicateLabelError (name : Text)
  /-- A declared name of fewer than two characters (R187). -/
  | shortLabelError (name : Text)
  /-- The source cannot be opened; raised before a run exists (R188). -/
  | inputNotFoundError
  deriving DecidableEq, Repr

/-- What an abort reports: the error, the failing line's 1-based number and its raw text (R160). -/
structure Report where
  error  : ErrorInfo
  lineNo : Nat
  raw    : Text
  deriving DecidableEq, Repr

/-- The Label Table: names with addresses, the names strictly rising in the order of `nameBefore` (R27). -/
abbrev LabelTable := List (Text × Nat)

/-- An output record: a word address and the encoder's full bit string (R28, R132). -/
structure Record where
  addr : Nat
  word : Bits
  deriving DecidableEq, Repr

/-- The output image: the records written, addresses strictly rising, and the two marks (R28, R44). -/
structure Memory where
  records    : List Record
  filled     : Bool
  terminated : Bool
  deriving DecidableEq, Repr

/-- The complete state of a run (R21), the source text it reads (R40), and the report of its one abort (R160; the model's own field). -/
structure State where
  /-- `SRC`: the source lines, line 1 first; never written (R40, R58). -/
  src     : List Text
  /-- `pass` (R24). -/
  pass    : Pass
  /-- `pc`: the slot index of the instruction line being handled (R22). -/
  pc      : Nat
  /-- `out_addr`: the next output address (R25). -/
  outAddr : Nat
  /-- `line_no`: 1-based number of the source line being handled (R26). -/
  lineNo  : Nat
  /-- `LT` (R27). -/
  lt      : LabelTable
  /-- `IMG` (R28). -/
  img     : Memory
  /-- The report of the abort, once there is one (R160). -/
  report  : Option Report
  deriving DecidableEq, Repr

/-- The start of a run (R33, R211), no source loaded. -/
def State.reset : State where
  src := []
  pass := .labels
  pc := 0
  outAddr := 0
  lineNo := 1
  lt := []
  img := { records := [], filled := false, terminated := false }
  report := none

/-- Why no state follows. -/
inductive Fault where
  /-- Raised by `step` and by every meaning in `DONE`: the run is over and has no successor (R151). Safe: nothing follows. -/
  | runDone
  /-- Raised by `step` and by every meaning in `ABORTED`: nothing runs after the first error (R151, R194). Safe: nothing follows. -/
  | runAborted
  /-- Raised by `step` when `line_no` is 0, which is no address of `SRC` (R40). Safe: no run reaches it. -/
  | noSuchLine
  deriving DecidableEq, Repr

/-- What the model gives no run to. -/
inductive Refusal where
  /-- An instruction with no meaning yet; no arm of `exec` raises it. Safe. -/
  | notModelled (mnemonic : String)
  /-- More than 255 instruction lines (R52, 92 D14): raised by every `step` on such a source, so that no run on it starts; and by a write at, or an
  end of pass 2 with, an `out_addr` of 256 or more, which no run reaches. Safe. -/
  | programTooLong
  /-- A label declaration whose name contains white space (R153, 92 D11): raised by every `step` on such a source. Safe. -/
  | labelNameWithWhitespace
  deriving DecidableEq, Repr

end Sys2Proof.Machine
end

