-- ==== Sys2Proof/Machine/Ops.lean ====
section
/-! DEFINITION. The named operations over the state: the Label Table (spec/20_memory.md R41, R42), the output image (R44 to R48), the fetch of a
source line, the sequencer's moves (spec/42_two_pass_sequencer.md R154 to R159), and the one trap, the abort (R160; spec/60_exceptions.md R192).
There is no return from an abort (R194). -/

namespace Sys2Proof.Machine

/-! ### The Label Table -/

/-- The order in which the table is kept: lexicographic, by character code. No rule reads it. -/
def nameBefore : Text → Text → Bool
  | _, [] => false
  | [], _ :: _ => true
  | c :: cs, d :: ds => c.toNat < d.toNat || (c == d && nameBefore cs ds)

/-- `LT_get`, `none` where `LT_has` is false; names are compared exactly (R42). -/
def LabelTable.get : LabelTable → Text → Option Nat
  | [], _ => none
  | (m, a) :: rest, n => if m = n then some a else LabelTable.get rest n

/-- `LT_has` (R42). -/
def LabelTable.has (t : LabelTable) (n : Text) : Bool := (LabelTable.get t n).isSome

/-- A new entry put in its place in the order. -/
def LabelTable.insertNew : LabelTable → Text → Nat → LabelTable
  | [], n, a => [(n, a)]
  | (m, b) :: rest, n, a =>
    if nameBefore n m then (n, a) :: (m, b) :: rest else (m, b) :: LabelTable.insertNew rest n a

/-- `LT_insert(name, addr)` (R41). An entry is never mutated: a name already present keeps its address. -/
def LabelTable.insert (t : LabelTable) (n : Text) (a : Nat) : LabelTable :=
  if t.has n then t else t.insertNew n a

/-- The table's canonical form: names strictly rising, so that each appears at most once (R27). -/
abbrev LabelTable.wf (t : LabelTable) : Prop := t.Pairwise (fun x y => nameBefore x.1 y.1 = true)

/-! ### The output image -/

/-- The record at a word address. -/
def findRecord : List Record → Nat → Option Bits
  | [], _ => none
  | r :: rest, a => if r.addr = a then some r.word else findRecord rest a

/-- Records with the one at `a` set to `w`, addresses kept rising. -/
def putRecord : List Record → Nat → Bits → List Record
  | [], a, w => [⟨a, w⟩]
  | r :: rest, a, w =>
    if r.addr = a then ⟨a, w⟩ :: rest
    else if a < r.addr then ⟨a, w⟩ :: r :: rest
    else r :: putRecord rest a w

/-- `MemWrite(a, 1, w)`: the output record `(a, w)` (R45). On a run `a` lies above every address written, so this appends. -/
def Memory.write (m : Memory) (a : Nat) (w : Bits) : Memory := { m with records := putRecord m.records a w }

/-- The fill record: every address with no record reads as the zero word (R46). -/
def Memory.fill (m : Memory) : Memory := { m with filled := true }

/-- The terminator (R47). -/
def Memory.terminate (m : Memory) : Memory := { m with terminated := true }

/-- What a word address with no record reads as: nothing before the fill, the zero word after it for the addresses of the image (R46, R48). -/
def Memory.unlisted (m : Memory) (a : Nat) : Option Bits :=
  if m.filled = true ∧ a < Config.depth then some (zeros Config.wWord) else none

/-- What a word address holds (R44, R48). -/
def Memory.read (m : Memory) (a : Nat) : Option Bits :=
  match findRecord m.records a with
  | some w => some w
  | none => m.unlisted a

/-- `IMG[a]` as a 16-bit word: only where the string is 16 bits long (R132, 92 D3). -/
def Memory.word16At (m : Memory) (a : Nat) : Option (BitVec 16) :=
  match m.read a with
  | some w => if w.length = Config.wWord then some (word16Of w) else none
  | none => none

/-- The image can be loaded as 16-bit words: no record is overlong (R132). -/
def Memory.loadable (m : Memory) : Bool := m.records.all (fun r => r.word.length == Config.wWord)

/-- The canonical form: addresses strictly rising, inside the image (R44, R45). -/
abbrev Memory.wf (m : Memory) : Prop :=
  m.records.Pairwise (fun r q => r.addr < q.addr) ∧ ∀ r ∈ m.records, r.addr < Config.depth

/-! ### The source text -/

/-- The lines of a source text, separated by line feeds (R152, 92 D10). -/
def splitLines : Text → List Text
  | [] => [[]]
  | c :: cs =>
    if c == '\n' then [] :: splitLines cs
    else
      match splitLines cs with
      | l :: ls => (c :: l) :: ls
      | [] => [[c]]

/-- The instruction lines of a source, in order: the one in slot 0 first (R161 a). -/
def instrs : List Text → List Instr
  | [] => []
  | raw :: rest =>
    match readLine raw with
    | .instr i => i :: instrs rest
    | .blank | .label _ => instrs rest

/-- The number of instruction lines (R52, R161). -/
def instrCount (src : List Text) : Nat := (instrs src).length

/-- The line declares a name that holds white space (R153). -/
def declaresSpacedName (raw : Text) : Bool :=
  match readLine raw with
  | .label n => n.any isSpace
  | .blank | .instr _ => false

/-- Why the model gives no run to a source, if it gives none: 256 or more instruction lines (R52, 92 D14), or a declared name that holds white
space (R153, 92 D11). The whole source decides, so no run on it starts. -/
def sourceRefusal (src : List Text) : Option Refusal :=
  if Config.depth ≤ instrCount src then some .programTooLong
  else if src.any declaresSpacedName then some .labelNameWithWhitespace
  else none

/-- The start of a run over these source lines (R33, R151). -/
def State.load (src : List Text) : State := { State.reset with src := src }

/-- Starting the process on a source text, or on a source that cannot be opened (R188): then no run exists. -/
def start : Option Text → Except ErrorInfo State
  | some text => .ok (State.load (splitLines text))
  | none => .error .inputNotFoundError

/-- The source line `line_no` addresses; `none` past the last line, and for 0 (R40). -/
def State.currentLine (s : State) : Option Text :=
  match s.lineNo with
  | 0 => none
  | k + 1 => s.src[k]?

/-- The raw text an abort reports: the line as read, before `Clean` (R160). -/
def State.rawLine (s : State) : Text := s.currentLine.getD []

/-- Why the sequencer has no move in this state, if it has none (R151; R40 for line 0). -/
def State.stopped (s : State) : Option Fault :=
  match s.pass with
  | .done => some .runDone
  | .aborted => some .runAborted
  | .labels | .emit => if s.lineNo = 0 then some .noSuchLine else none

/-! ### The sequencer's moves -/

/-- A line is passed over: nothing changes but `line_no` (R152, R155). -/
def State.skipLine (s : State) : State := { s with lineNo := s.lineNo + 1 }

/-- An instruction line in pass 1: `pc <- pc + 1` and nothing else (R156). -/
def State.countLine (s : State) : State := { s with pc := s.pc + 1, lineNo := s.lineNo + 1 }

/-- A label declared at the current `pc`, which does not move (R154). -/
def State.declare (s : State) (n : Text) : State :=
  { s with lt := s.lt.insert n s.pc, lineNo := s.lineNo + 1 }

/-- A record written at `out_addr`; `out_addr` and `pc` each plus 1 (R157). -/
def State.emit (s : State) (w : Bits) : State :=
  { s with img := s.img.write s.outAddr w, outAddr := s.outAddr + 1, pc := s.pc + 1, lineNo := s.lineNo + 1 }

/-- TAKING THE ONE TRAP (R160, R192): `pass <- ABORTED` and the report, which names the line and its raw text; all else keeps what it held.
No fill, no terminator, no handler. -/
def State.abort (s : State) (e : ErrorInfo) : State :=
  { s with pass := .aborted, report := some { error := e, lineNo := s.lineNo, raw := s.rawLine } }

/-- The pass transition (R158). -/
def State.beginEmit (s : State) : State := { s with pass := .emit, pc := 0, lineNo := 1 }

/-- The end of a successful run: the fill, the terminator, `DONE` (R159). -/
def State.finish (s : State) : State := { s with pass := .done, img := s.img.fill.terminate }

/-- What the encoder's outcome does to the state in pass 2 (R157). -/
def State.settle (s : State) (r : Except ErrorInfo Bits) : State :=
  match r with
  | .ok w => s.emit w
  | .error e => s.abort e

/-- An instruction line whose encoding has the outcome `r` (R156, R157). The image has 256 words (R44, R52). -/
def instrLine (s : State) (r : Except ErrorInfo Bits) : Host.Outcome State Fault Refusal :=
  match s.pass with
  | .labels => .next s.countLine
  | .emit => if s.outAddr < Config.depth then .next (s.settle r) else .refused .programTooLong
  | .done => .fault .runDone
  | .aborted => .fault .runAborted

/-- A label declaration (R154, R155). -/
def labelLine (n : Text) (s : State) : Host.Outcome State Fault Refusal :=
  match s.pass with
  | .labels =>
    if n.length < Config.minLabelLen then .next (s.abort (.shortLabelError n))
    else if s.lt.has n then .next (s.abort (.duplicateLabelError n))
    else .next (s.declare n)
  | .emit => .next s.skipLine
  | .done => .fault .runDone
  | .aborted => .fault .runAborted

/-- The end of the source is reached (R158, R159). No fill starts above the image (R52). -/
def endOfPass (s : State) : Host.Outcome State Fault Refusal :=
  match s.pass with
  | .labels => .next s.beginEmit
  | .emit => if s.outAddr < Config.depth then .next s.finish else .refused .programTooLong
  | .done => .fault .runDone
  | .aborted => .fault .runAborted

/-- The contents of the image as a run leaves it (R48): no meaning unless `pass = DONE` (R31, R192). -/
def State.image (s : State) (a : Nat) : Option Bits :=
  if s.pass = .done then s.img.read a else none

end Sys2Proof.Machine
end

