-- ==== Sys2Proof/Machine/Operands.lean ====
section
/-! DEFINITION. The Operand Encoder (spec/40_operand_encoder.md R90 to R99) and the field rules of spec/30_encoding.md (R60 to R65). -/

namespace Sys2Proof.Machine

/-! ### Rendering -/

/-- The binary digits of `v`, most significant first; `fuel` above `v` is always enough. -/
def binDigits : Nat → Nat → Bits
  | 0, _ => []
  | fuel + 1, v => if v < 2 then [v == 1] else binDigits fuel (v / 2) ++ [v % 2 == 1]

/-- `bin(v)`: the shortest bit string of value `v`, `0` for 0 (R9). -/
def bin (v : Nat) : Bits := binDigits (v + 1) v

/-- `render(v, w)`: zeros on the left until there are at least `w` digits; no digit is ever dropped (R99). -/
def render (v w : Nat) : Bits := zeros (w - (bin v).length) ++ bin v

/-- The last two lines of R121: zeros on the right up to 16 bits, nothing cut (R65, R66). -/
def pad16 (s : Bits) : Bits := s ++ zeros (Config.wWord - s.length)

/-! ### What the opcode selects -/

/-- `OpWidth(mn)`: 4 for `ADI` and `CMPJ`, 8 for every other mnemonic (R63). -/
def opWidth : Mnemonic → Nat
  | .adi | .cmpj => Config.wNarrow
  | .halt | .ldi | .add | .dec | .inc | .jmp | .nop | .extra _ => Config.wWide

/-- `DIRECT_SET`: label operands are absolute addresses under `JMP` only (R5, R96). -/
def isDirect : Mnemonic → Bool
  | .jmp => true
  | .halt | .ldi | .add | .adi | .cmpj | .dec | .inc | .nop | .extra _ => false

/-- `GAP_SET`: the filler between the operands of `INC` and `DEC` (R5, R64). -/
def hasGap : Mnemonic → Bool
  | .inc | .dec => true
  | .halt | .ldi | .add | .adi | .cmpj | .jmp | .nop | .extra _ => false

/-! ### The operand classes -/

/-- A numeric literal: `d` read in base `b`, or `EncodingError` naming the whole token (R92, R93, R94). -/
def numberField (b : Nat) (token d : Text) (w : Nat) : Except ErrorInfo Bits :=
  match parseBase b d with
  | some v => .ok (render v w)
  | none => .error (.encodingError token)

/-- The value of a numeric literal; `none` for the other classes and for a malformed literal (R92, R93, R94). -/
def literalValue : Operand → Option Nat
  | .hex d => parseBase 16 d
  | .bin d => parseBase 2 d
  | .dec d => parseBase 10 d
  | .reg _ | .label _ => none

/-- A register: its index in 4 bits, whatever width was asked (R95). -/
def registerField (r : Reg) : Bits := render r.val Config.wReg

/-- A label in direct mode: its address verbatim (R96, R98). -/
def directField (n : Text) (w : Nat) (lt : LabelTable) : Except ErrorInfo Bits :=
  match lt.get n with
  | some l => .ok (render l w)
  | none => .error (.labelError n)

/-- The raw offset `L - pc`, with the document's +15 for a negative one, which no caller reaches (R97). -/
def offsetOf (l pc : Nat) : Int :=
  if (l : Int) - pc < 0 then (l : Int) - pc + Config.wrapConst else (l : Int) - pc

/-- A label in relative mode: forward only (R97, R98). -/
def relativeField (n : Text) (w pc : Nat) (lt : LabelTable) : Except ErrorInfo Bits :=
  match lt.get n with
  | some l => if pc > l then .error (.negativeJumpError n) else .ok (render (offsetOf l pc).toNat w)
  | none => .error (.labelError n)

/-- `EncodeOperand(opname, tok, w, pc, LT)` on a classified token (R90, R91). -/
def encodeOperand (mn : Mnemonic) (w pc : Nat) (lt : LabelTable) (o : Operand) : Except ErrorInfo Bits :=
  match o with
  | .hex d => numberField 16 o.token d w
  | .bin d => numberField 2 o.token d w
  | .dec d => numberField 10 o.token d w
  | .reg r => .ok (registerField r)
  | .label n => if isDirect mn then directField n w lt else relativeField n w pc lt

/-! ### Operands from the left -/

/-- Go on with the result of `x`; its error ends the call (R121). -/
def andThen {α β : Type} (x : Except ErrorInfo α) (k : α → Except ErrorInfo β) : Except ErrorInfo β :=
  match x with
  | .ok a => k a
  | .error e => .error e

/-- The fields of the operands, from the left; the first error ends the call (R121, R190). -/
def encodeOperands (mn : Mnemonic) (w pc : Nat) (lt : LabelTable) : List Operand → Except ErrorInfo (List Bits)
  | [] => .ok []
  | o :: rest =>
    andThen (encodeOperand mn w pc lt o) fun f =>
      andThen (encodeOperands mn w pc lt rest) fun fs => .ok (f :: fs)

/-- The body of the word: the fields in source order, with the zero filler between the two of `INC` and `DEC` (R64). -/
def joinFields (mn : Mnemonic) (fs : List Bits) : Bits :=
  if hasGap mn then
    match fs with
    | [f, g] => f ++ zeros Config.wGap ++ g
    | _ => fs.flatten
  else fs.flatten

end Sys2Proof.Machine
end

