-- ==== Sys2Proof/Machine/Add.lean ====
section
/-! DEFINITION. ADD: three operands at width 8, format RRR (spec/41_instruction_encoder.md R124). -/

namespace Sys2Proof.Machine

/-- The word of `ADD`: `P_ADD`, the three fields, the pad (R124). -/
def wordAdd (T : Tables) (ops : List Operand) (pc : Nat) (lt : LabelTable) : Except ErrorInfo Bits :=
  match ops with
  | [a, b, c] =>
    andThen (encodeOperand .add Config.wWide pc lt a) fun fa =>
      andThen (encodeOperand .add Config.wWide pc lt b) fun fb =>
        andThen (encodeOperand .add Config.wWide pc lt c) fun fc => .ok (pad16 (bitsOf T.pAdd ++ fa ++ fb ++ fc))
  | _ => .error (.arityError Mnemonic.add.name ops.length 3)

/-- `ADD` (R124, R156, R157). -/
def execAdd (ops : List Operand) (s : State) : Host.Outcome State Fault Refusal := instrLine s (wordAdd tables ops s.pc s.lt)

end Sys2Proof.Machine
end

