-- ==== Sys2Proof/Machine/Extra.lean ====
section
/-! DEFINITION. Any further mnemonic (spec/41_instruction_encoder.md R131): width 8, relative labels, no filler; in no table,
UnknownOpcodeError (spec/60_exceptions.md R181). -/

namespace Sys2Proof.Machine

/-- The word of a further mnemonic: its code, its `ARITY(mn)` fields at width 8, the pad (R131). -/
def wordExtra (T : Tables) (mn : Text) (ops : List Operand) (pc : Nat) (lt : LabelTable) : Except ErrorInfo Bits :=
  match T.lookup (.extra mn) with
  | none => .error (.unknownOpcodeError mn)
  | some (code, arity) =>
    if ops.length = arity then
      andThen (encodeOperands (.extra mn) Config.wWide pc lt ops) fun fs => .ok (pad16 (bitsOf code ++ fs.flatten))
    else .error (.arityError mn ops.length arity)

/-- Any further mnemonic (R131, R156, R157). -/
def execExtra (mn : Text) (ops : List Operand) (s : State) : Host.Outcome State Fault Refusal :=
  instrLine s (wordExtra tables mn ops s.pc s.lt)

end Sys2Proof.Machine
end

