-- ==== Sys2Proof/Machine/Fixed.lean ====
section
/-! DEFINITION. The mnemonics without operands, format Z: HALT (spec/41_instruction_encoder.md R122) and NOP (R130). -/

namespace Sys2Proof.Machine

/-- The word of `HALT`: a constant; `pc` and `LT` are not read (R122). -/
def wordHalt (ops : List Operand) : Except ErrorInfo Bits :=
  match ops with
  | [] => .ok (bitsOf 0b0000#4 ++ zeros 12)
  | _ :: _ => .error (.arityError Mnemonic.halt.name ops.length 0)

/-- `HALT` (R122, R156, R157). -/
def execHalt (ops : List Operand) (s : State) : Host.Outcome State Fault Refusal := instrLine s (wordHalt ops)

/-- The word of `NOP`: a constant; `pc` and `LT` are not read (R130). -/
def wordNop (ops : List Operand) : Except ErrorInfo Bits :=
  match ops with
  | [] => .ok (bitsOf 0b1111#4 ++ zeros 12)
  | _ :: _ => .error (.arityError Mnemonic.nop.name ops.length 0)

/-- `NOP` (R130, R156, R157). -/
def execNop (ops : List Operand) (s : State) : Host.Outcome State Fault Refusal := instrLine s (wordNop ops)

end Sys2Proof.Machine
end

