-- ==== Sys2Proof/Machine/Gap.lean ====
section
/-! DEFINITION. The mnemonics with the zero filler, format R0R: DEC (spec/41_instruction_encoder.md R127) and INC (R128). -/

namespace Sys2Proof.Machine

/-- The word of `DEC`: `P_DEC`, the first field, the filler, the second field, the pad (R127). -/
def wordDec (T : Tables) (ops : List Operand) (pc : Nat) (lt : LabelTable) : Except ErrorInfo Bits :=
  match ops with
  | [a, b] =>
    andThen (encodeOperand .dec Config.wWide pc lt a) fun fa =>
      andThen (encodeOperand .dec Config.wWide pc lt b) fun fb =>
        .ok (pad16 (bitsOf T.pDec ++ fa ++ zeros Config.wGap ++ fb))
  | _ => .error (.arityError Mnemonic.dec.name ops.length 2)

/-- `DEC` (R127, R156, R157). -/
def execDec (ops : List Operand) (s : State) : Host.Outcome State Fault Refusal := instrLine s (wordDec tables ops s.pc s.lt)

/-- The word of `INC`: `P_INC`, the first field, the filler, the second field, the pad (R128). -/
def wordInc (T : Tables) (ops : List Operand) (pc : Nat) (lt : LabelTable) : Except ErrorInfo Bits :=
  match ops with
  | [a, b] =>
    andThen (encodeOperand .inc Config.wWide pc lt a) fun fa =>
      andThen (encodeOperand .inc Config.wWide pc lt b) fun fb =>
        .ok (pad16 (bitsOf T.pInc ++ fa ++ zeros Config.wGap ++ fb))
  | _ => .error (.arityError Mnemonic.inc.name ops.length 2)

/-- `INC` (R128, R156, R157). -/
def execInc (ops : List Operand) (s : State) : Host.Outcome State Fault Refusal := instrLine s (wordInc tables ops s.pc s.lt)

end Sys2Proof.Machine
end

