-- ==== Sys2Proof/Machine/Jump.lean ====
section
/-! DEFINITION. JMP: one operand at width 8, a label in direct mode, format L8 (spec/41_instruction_encoder.md R129). -/

namespace Sys2Proof.Machine

/-- The word of `JMP`: `P_JMP`, the field, the pad (R129). -/
def wordJmp (T : Tables) (ops : List Operand) (pc : Nat) (lt : LabelTable) : Except ErrorInfo Bits :=
  match ops with
  | [t] => andThen (encodeOperand .jmp Config.wWide pc lt t) fun f => .ok (pad16 (bitsOf T.pJmp ++ f))
  | _ => .error (.arityError Mnemonic.jmp.name ops.length 1)

/-- `JMP` (R129, R156, R157). -/
def execJmp (ops : List Operand) (s : State) : Host.Outcome State Fault Refusal := instrLine s (wordJmp tables ops s.pc s.lt)

end Sys2Proof.Machine
end

