-- ==== Sys2Proof/Machine/LoadImm.lean ====
section
/-! DEFINITION. LDI: two operands at width 8, format RI8 (spec/41_instruction_encoder.md R123). -/

namespace Sys2Proof.Machine

/-- The word of `LDI`: `0001`, the two fields, the pad (R123). -/
def wordLdi (ops : List Operand) (pc : Nat) (lt : LabelTable) : Except ErrorInfo Bits :=
  match ops with
  | [a, b] =>
    andThen (encodeOperand .ldi Config.wWide pc lt a) fun fa =>
      andThen (encodeOperand .ldi Config.wWide pc lt b) fun fb => .ok (pad16 (bitsOf 0b0001#4 ++ fa ++ fb))
  | _ => .error (.arityError Mnemonic.ldi.name ops.length 2)

/-- `LDI` (R123, R156, R157). -/
def execLdi (ops : List Operand) (s : State) : Host.Outcome State Fault Refusal := instrLine s (wordLdi ops s.pc s.lt)

end Sys2Proof.Machine
end

