-- ==== Sys2Proof/Machine/Narrow.lean ====
section
/-! DEFINITION. The mnemonics of operand width 4, with open operand counts, format RRN4 when the count is 3: ADI
(spec/41_instruction_encoder.md R125) and CMPJ (R126). -/

namespace Sys2Proof.Machine

/-- The word of `ADI`: `P_ADI`, the `A_ADI` fields at width 4, the pad (R125). -/
def wordAdi (T : Tables) (ops : List Operand) (pc : Nat) (lt : LabelTable) : Except ErrorInfo Bits :=
  if ops.length = T.aAdi then
    andThen (encodeOperands .adi Config.wNarrow pc lt ops) fun fs => .ok (pad16 (bitsOf T.pAdi ++ fs.flatten))
  else .error (.arityError Mnemonic.adi.name ops.length T.aAdi)

/-- `ADI` (R125, R156, R157). -/
def execAdi (ops : List Operand) (s : State) : Host.Outcome State Fault Refusal := instrLine s (wordAdi tables ops s.pc s.lt)

/-- The word of `CMPJ`: `P_CMPJ`, the `A_CMPJ` fields at width 4, a label forward of `pc` in any position, the pad (R126). -/
def wordCmpj (T : Tables) (ops : List Operand) (pc : Nat) (lt : LabelTable) : Except ErrorInfo Bits :=
  if ops.length = T.aCmpj then
    andThen (encodeOperands .cmpj Config.wNarrow pc lt ops) fun fs => .ok (pad16 (bitsOf T.pCmpj ++ fs.flatten))
  else .error (.arityError Mnemonic.cmpj.name ops.length T.aCmpj)

/-- `CMPJ` (R126, R156, R157). -/
def execCmpj (ops : List Operand) (s : State) : Host.Outcome State Fault Refusal := instrLine s (wordCmpj tables ops s.pc s.lt)

end Sys2Proof.Machine
end

