-- ==== Sys2Proof/Machine/Dispatch.lean ====
section
/-! DEFINITION. One arm per constructor of Instr. -/

namespace Sys2Proof.Machine

def exec (i : Instr) (s : State) : Host.Outcome State Fault Refusal :=
  match i with
  | .halt ops => Sys2Proof.Machine.execHalt ops s
  | .ldi ops => Sys2Proof.Machine.execLdi ops s
  | .add ops => Sys2Proof.Machine.execAdd ops s
  | .adi ops => Sys2Proof.Machine.execAdi ops s
  | .cmpj ops => Sys2Proof.Machine.execCmpj ops s
  | .dec ops => Sys2Proof.Machine.execDec ops s
  | .inc ops => Sys2Proof.Machine.execInc ops s
  | .jmp ops => Sys2Proof.Machine.execJmp ops s
  | .nop ops => Sys2Proof.Machine.execNop ops s
  | .extra mn ops => Sys2Proof.Machine.execExtra mn ops s

end Sys2Proof.Machine
end

