-- ==== Sys2Proof/Machine/Step.lean ====
section
/-! DEFINITION. One step of a run (spec/42_two_pass_sequencer.md R151, R165): one line of the source, or one of the two transitions. -/

namespace Sys2Proof.Machine

/-- One step, on a source the model gives a run to: the line `line_no` addresses is read and handled; past the last line the pass ends. -/
def step (s : State) : Host.Outcome State Fault Refusal :=
  match s.stopped with
  | some f => .fault f
  | none =>
    match sourceRefusal s.src with
    | some r => .refused r
    | none =>
      match s.currentLine with
      | none => endOfPass s
      | some raw =>
        match readLine raw with
        | .blank => .next s.skipLine
        | .label n => labelLine n s
        | .instr i => exec i s

/-- The host's fetch: a source of the one line that stands for the table word, pass 2 about to read it. A program is loaded from outside the
machine and pass 1 runs before its first instruction is encoded; this stands for both. A word no line stands for changes nothing. -/
def State.withFetchWord (s : State) (nbits w : Nat) : State :=
  match tableWordLine nbits w with
  | some line => { s with src := [line], lineNo := 1, pass := .emit }
  | none => s

end Sys2Proof.Machine
end

