-- ==== Sys2Proof/Machine/Flags.lean ====
section
/-! DEFINITION. There are no flags, condition codes or predicates (spec/10_state.md R30). What a call of the block shows beside its word: the
error kind with its status code (spec/60_exceptions.md R180, R189) and the derived statuses overlong and word16 (spec/41_instruction_encoder.md R132). -/

namespace Sys2Proof.Machine

/-- The status codes, the spec's own assignment, 0 for `OK` (R189, 92 D15). -/
def statusCode : Option ErrorInfo → Nat
  | none => 0
  | some (.unknownOpcodeError _) => 1
  | some (.arityError _ _ _) => 2
  | some (.encodingError _) => 3
  | some (.labelError _) => 4
  | some (.negativeJumpError _) => 5
  | some (.duplicateLabelError _) => 6
  | some (.shortLabelError _) => 7
  | some .inputNotFoundError => 8

/-- `overlong`: the outcome is `ok(s)` with more than 16 bits; no error (R11, R132). -/
def overlong : Except ErrorInfo Bits → Bool
  | .ok s => decide (Config.wWord < s.length)
  | .error _ => false

/-- `word16`: the word, when it is exactly 16 bits; otherwise it has no value (R132). -/
def word16 : Except ErrorInfo Bits → Option (BitVec 16)
  | .ok s => if s.length = Config.wWord then some (word16Of s) else none
  | .error _ => none

end Sys2Proof.Machine
end

