-- ==== Sys2Proof/Machine/Encoder.lean ====
section
/-! DEFINITION. The Instruction Encoder as the one algorithm of spec/41_instruction_encoder.md R120, R121, and the block's ports
(spec/10_state.md R32). The meanings are written from the per-mnemonic rules R122 to R131; that the two agree is a statement. -/

namespace Sys2Proof.Machine

/-- `EncodeInstr` on a line already read, under the tables `T`: mnemonic, then arity, then operands from the left (R121). -/
def encodeInstr (T : Tables) (mn : Mnemonic) (ops : List Operand) (pc : Nat) (lt : LabelTable) : Except ErrorInfo Bits :=
  match T.lookup mn with
  | none => .error (.unknownOpcodeError mn.name)
  | some (code, arity) =>
    if ops.length = arity then
      andThen (encodeOperands mn (opWidth mn) pc lt ops) fun fs => .ok (pad16 (bitsOf code ++ joinFields mn fs))
    else .error (.arityError mn.name ops.length arity)

/-- `EncodeInstr(mn_raw, ops, pc, LT)`, the block on raw tokens (R120, R121). -/
def encodeTokens (T : Tables) (mnRaw : Text) (toks : List Text) (pc : Nat) (lt : LabelTable) : Except ErrorInfo Bits :=
  encodeInstr T (Mnemonic.ofToken mnRaw) (toks.map Operand.ofToken) pc lt

/-- The block's output ports (R32). `status` is the code of R189; a port that is not meaningful holds `none`. -/
structure BlockOut where
  status   : Nat
  errInfo  : Option ErrorInfo
  word     : Option Bits
  overlong : Option Bool
  word16   : Option (BitVec 16)
  deriving DecidableEq, Repr

/-- The block: a combinational function of its input ports (R20, R32). -/
def blockOut (T : Tables) (mnRaw : Text) (toks : List Text) (pc : Nat) (lt : LabelTable) : BlockOut :=
  match encodeTokens T mnRaw toks pc lt with
  | .ok s =>
    { status := statusCode none, errInfo := none, word := some s,
      overlong := some (Machine.overlong (.ok s)), word16 := Machine.word16 (.ok s) }
  | .error e =>
    { status := statusCode (some e), errInfo := some e, word := none, overlong := none, word16 := none }

end Sys2Proof.Machine
end

