-- ==== Sys2Proof/Machine/Run.lean ====
section
/-! DEFINITION. The whole run as spec/42_two_pass_sequencer.md R165 writes it, two loops over the lines, with the refusals of R52 and R153.
It is the clear definition the stepping machine is held against; no step calls it. -/

namespace Sys2Proof.Machine

/-- How a run ends. -/
inductive RunEnd where
  /-- `pass = DONE`, with the Label Table and the image. -/
  | done (lt : LabelTable) (img : Memory)
  /-- `pass = ABORTED`, with the report and the records written before it. -/
  | aborted (report : Report) (records : List Record)
  /-- The model admits no run on this source. -/
  | refused (r : Refusal)
  deriving DecidableEq, Repr

/-- How pass 1 ends: with the complete table, or with the abort of the run, before any record (R193). -/
inductive LabelsEnd where
  | complete (lt : LabelTable)
  | ended (report : Report)
  deriving DecidableEq, Repr

/-- The first loop of R165, from line number `k` on. -/
def runLabels : List Text → Nat → Nat → LabelTable → LabelsEnd
  | [], _, _, lt => .complete lt
  | raw :: rest, k, pc, lt =>
    match readLine raw with
    | .blank => runLabels rest (k + 1) pc lt
    | .label n =>
      if n.length < Config.minLabelLen then .ended ⟨.shortLabelError n, k, raw⟩
      else if lt.has n then .ended ⟨.duplicateLabelError n, k, raw⟩
      else runLabels rest (k + 1) pc (lt.insert n pc)
    | .instr _ => runLabels rest (k + 1) (pc + 1) lt

/-- The second loop of R165, from line number `k` on, `records` written so far at the addresses below `outAddr`. -/
def runEmit (T : Tables) (lt : LabelTable) : List Text → Nat → Nat → Nat → List Record → RunEnd
  | [], _, _, _, records => .done lt { records := records, filled := true, terminated := true }
  | raw :: rest, k, pc, outAddr, records =>
    match readLine raw with
    | .blank => runEmit T lt rest (k + 1) pc outAddr records
    | .label _ => runEmit T lt rest (k + 1) pc outAddr records
    | .instr i =>
      match encodeInstr T i.mnemonic i.operands pc lt with
      | .ok w => runEmit T lt rest (k + 1) (pc + 1) (outAddr + 1) (records ++ [⟨outAddr, w⟩])
      | .error e => .aborted ⟨e, k, raw⟩ records

/-- `Run(SRC)` (R165), on the sources that have a run (R52, R153). -/
def runSource (T : Tables) (src : List Text) : RunEnd :=
  match sourceRefusal src with
  | some r => .refused r
  | none =>
    match runLabels src 1 0 [] with
    | .ended report => .aborted report []
    | .complete lt => runEmit T lt src 1 0 0 []

end Sys2Proof.Machine
end

