-- ==== Sys2Proof/Safety.lean ====
section
/-! DEFINITION. What the states of a run satisfy (spec/42_two_pass_sequencer.md R161; spec/10_state.md R24, R27, R28; spec/20_memory.md R45, R48),
and the sources the model gives a run to. -/

namespace Sys2Proof.Machine

/-- The declarations of the lines, each with the number of instruction lines before it, counted from `k` (R154, R161 a). -/
def declared : List Text → Nat → List (Text × Nat)
  | [], _ => []
  | raw :: rest, k =>
    match readLine raw with
    | .instr _ => declared rest (k + 1)
    | .label n => (n, k) :: declared rest k
    | .blank => declared rest k

/-- A source the model gives a run to: at most 255 instruction lines (R52) and no white space in a declared name (R153). -/
def admitted (src : List Text) : Prop :=
  instrCount src < Config.depth ∧ ∀ e ∈ declared src 0, e.1.any isSpace = false

/-- The lines whose declarations stand in the table: those before the current one in pass 1, all of them after it. -/
def State.labelLines (s : State) : List Text :=
  match s.pass with
  | .labels => s.src.take (s.lineNo - 1)
  | .emit | .done | .aborted => s.src

/-- The invariant of a run (R161 and the rules it names). In `ABORTED` only the clauses that do not name another pass remain. -/
structure State.RunInv (s : State) : Prop where
  /-- The image's canonical form (R44, R45). -/
  imgWf : s.img.wf
  /-- Each label name appears at most once (R27). -/
  ltWf : s.lt.wf
  /-- `line_no` is 1 to one past the last line (R26). -/
  lineRange : 1 ≤ s.lineNo ∧ s.lineNo ≤ s.src.length + 1
  /-- Records stand at 0, 1, 2, ... below `out_addr` (R45). -/
  addresses : s.img.records.map Record.addr = List.range s.outAddr
  /-- Every record has at least 16 bits (R11). -/
  wordLength : ∀ r ∈ s.img.records, Config.wWord ≤ r.word.length
  /-- `pc` is the number of instruction lines before the current one (R161 a). -/
  pcCounts : s.pass = .labels ∨ s.pass = .emit → s.pc = instrCount (s.src.take (s.lineNo - 1))
  /-- Nothing is written in pass 1 (R33). -/
  labelsEmpty : s.pass = .labels → s.outAddr = 0
  /-- `pc = out_addr` in pass 2 (R161 b), and in `DONE`, where both keep what they held (log entry 29). -/
  emitSame : s.pass = .emit ∨ s.pass = .done → s.pc = s.outAddr
  /-- In `DONE` there is one record for each instruction line (R161 e). -/
  doneCount : s.pass = .done → s.outAddr = instrCount s.src
  /-- A record at `a` is the word of the instruction in slot `a`, encoded at `pc = a` with the complete table (R48, R157, R161 b). -/
  recordsMean : ∀ r ∈ s.img.records, ∃ i, (instrs s.src)[r.addr]? = some i ∧
    encodeInstr tables i.mnemonic i.operands r.addr s.lt = .ok r.word
  /-- The table holds the declarations of the lines pass 1 has handled, and nothing else (R154, R161 a). -/
  ltMeaning : s.pass ≠ .aborted → ∀ n a, s.lt.get n = some a ↔ (n, a) ∈ declared s.labelLines 0
  /-- Names are at least two characters long and hold no white space (R154, R153). -/
  ltNames : ∀ e ∈ s.lt, Config.minLabelLen ≤ e.1.length ∧ e.1.any isSpace = false
  /-- The fill and the terminator have been emitted exactly in `DONE` (R159, R160). -/
  marks : (s.img.filled = true ↔ s.pass = .done) ∧ (s.img.terminated = true ↔ s.pass = .done)
  /-- Past pass 1 the source is one that has a run (R52, R153; 92 D14, D11, log entries 12 and 3). -/
  sourceAdmitted : s.pass ≠ .labels → admitted s.src
  /-- There is a report exactly in `ABORTED` (R160). -/
  reported : s.report.isSome = true ↔ s.pass = .aborted

/-- The steps a run can still take: the lines left in the passes, and one for each transition (R223). -/
def stepsLeft (s : State) : Nat :=
  match s.pass with
  | .labels => 2 * s.src.length + 3 - s.lineNo
  | .emit => s.src.length + 2 - s.lineNo
  | .done => 0
  | .aborted => 0

end Sys2Proof.Machine
end

