-- ==== Sys2Proof/Certificates/Slice0/Obligations.lean ====
section
/-! DEFINITION. The statements for the provers. Each docstring names the rules of spec/ it formalises; where it rests on one of the spec's own
decisions (92 D<n>) or on a choice of the model, it says so. -/

open Sys2Proof Sys2Proof.Machine

/-! ### Reading a source line -/

/-- On a source the model gives a run to, a step at a line that decodes to an instruction is `exec` of that instruction; nothing is added around it
(R151, R156, R157, R165). One line a step is the model's choice (log entry 18). -/
def Obligations.StepRunsDecodedLine : Prop :=
  ∀ (s : State) (raw : Text) (i : Instr), (s.pass = .labels ∨ s.pass = .emit) → s.lineNo ≠ 0 →
    admitted s.src → s.src[s.lineNo - 1]? = some raw → decode raw = .ok i → step s = exec i s

/-- Reading the line written for a well-formed instruction gives that instruction back, whatever its operands (R75, R77, R153). The instruction as a
mnemonic with classified operands is the model's (log entry 20). -/
def Obligations.DecodeOfEncodedLine : Prop :=
  ∀ i : Instr, i.wellFormed = true → decode (encode i) = .ok i

/-- Every line that reads as an instruction reads as a well-formed one (R91, R152, R153, R212 f). -/
def Obligations.DecodedLinesAreWellFormed : Prop :=
  ∀ (raw : Text) (i : Instr), decode raw = .ok i → i.wellFormed = true

/-- Lines written out from R75 to R77 and one table word, each with the instruction it stands for. -/
def Obligations.WrittenLinesDecode : Prop :=
  decode ['L', 'D', 'I', ' ', 'A', ' ', '0', 'x', '0', '5'] = .ok (.ldi [.reg 0, .hex ['0', '5']]) ∧
  decode [' ', ' ', 'j', 'm', 'p', ' ', 'L', 'O', 'O', 'P', ' ', ';', ' ', 'a', 'g', 'a', 'i', 'n'] = .ok (.jmp [.label ['L', 'O', 'O', 'P']]) ∧
  decode ['i', 'n', 'c', ' ', 'c', ' ', 'd'] = .ok (.inc [.reg 2, .reg 3]) ∧
  decode ['L', 'O', 'O', 'P', ':', ' ', ';', ' ', 'h', 'e', 'r', 'e'] = .error (.labelDeclaration ['L', 'O', 'O', 'P']) ∧
  decode ['L', 'O', 'O', 'P', ':', ' ', 'N', 'O', 'P'] = .ok (.extra ['L', 'O', 'O', 'P', ':'] [.label ['N', 'O', 'P']]) ∧
  decodeTableWord 16 0b0001000000000101 = some (.ldi [.reg 0, .hex ['0', '5']])

/-- Cleaning drops everything from the first semicolon, then white space at both ends and nothing else (R152). The white-space characters are 92 D10. -/
def Obligations.CleanLine : Prop :=
  (∀ a b : Text, (∀ c ∈ a, c ≠ ';') → clean (a ++ ';' :: b) = clean a) ∧
  (∀ a : Text, (∀ c ∈ a, c ≠ ';') →
    (∃ l r : Text, a = l ++ clean a ++ r ∧ l.all isSpace = true ∧ r.all isSpace = true) ∧
    (∀ c, (clean a).head? = some c ∨ (clean a).getLast? = some c → isSpace c = false))

/-- Splitting gives the maximal runs of non-white-space characters, in order; an empty run is none (R153). -/
def Obligations.SplitLine : Prop :=
  split [] = [] ∧
  (∀ t : Text, t ≠ [] → t.all (fun c => !isSpace c) = true → split t = [t]) ∧
  (∀ (a b : Text) (c : Char), isSpace c = true → split (a ++ c :: b) = split a ++ split b) ∧
  (∀ t : Text, ∀ u ∈ split t, u ≠ [] ∧ u.all (fun c => !isSpace c) = true)

/-- What a line is (R152, R153): blank, a label declaration if the last character is a colon, otherwise the instruction of its tokens. -/
def Obligations.LineClassification : Prop :=
  ∀ raw : Text,
    (clean raw = [] → readLine raw = .blank) ∧
    (∀ n, clean raw = n ++ [':'] → readLine raw = .label n) ∧
    (clean raw ≠ [] → (¬ ∃ n, clean raw = n ++ [':']) → ∃ mn toks, split (clean raw) = mn :: toks ∧
      readLine raw = .instr (Instr.make (Mnemonic.ofToken mn) (toks.map Operand.ofToken)))

/-- The case of a mnemonic and of a register letter does not matter (R76, R133 f). -/
def Obligations.CaseOfMnemonicsAndRegisters : Prop :=
  (∀ (T : Tables) (mn : Text) (toks : List Text) (pc : Nat) (lt : LabelTable),
    encodeTokens T (upper mn) toks pc lt = encodeTokens T mn toks pc lt) ∧
  (∀ (t : Text) (r : Reg), Operand.ofToken t = .reg r ↔ Operand.ofToken (upper t) = .reg r)

/-! ### The Operand Encoder -/

/-- The five classes, decided by spelling alone, in order (R91). That the prefixes are lower case and commit a token is 92 D9. -/
def Obligations.OperandClassBySpelling : Prop :=
  ∀ t : Text,
    (∀ d, Operand.ofToken t = .hex d ↔ t = '0' :: 'x' :: d) ∧
    (∀ d, Operand.ofToken t = .bin d ↔ t = '0' :: 'b' :: d) ∧
    (∀ d, Operand.ofToken t = .dec d ↔ t = d ∧ d ≠ [] ∧ ∀ c ∈ d, c ∈ ['0', '1', '2', '3', '4', '5', '6', '7', '8', '9']) ∧
    (∀ r, Operand.ofToken t = .reg r ↔ ∃ c, t = [c] ∧ ['A', 'B', 'C', 'D', 'E', 'F', 'G', 'H', 'I', 'J', 'K', 'L', 'M', 'N', 'O', 'P'][r.val]? = some (upperChar c)) ∧
    (∀ n, Operand.ofToken t = .label n ↔ t = n ∧ (∀ d, t ≠ '0' :: 'x' :: d) ∧ (∀ d, t ≠ '0' :: 'b' :: d) ∧
      ¬ (t ≠ [] ∧ ∀ c ∈ t, c ∈ ['0', '1', '2', '3', '4', '5', '6', '7', '8', '9']) ∧
      ¬ ∃ c, t = [c] ∧ upperChar c ∈ ['A', 'B', 'C', 'D', 'E', 'F', 'G', 'H', 'I', 'J', 'K', 'L', 'M', 'N', 'O', 'P'])

/-- The digits of a base are those below it, hexadecimal ones in either case; a literal is the number its digits denote, rendered at the width asked; without digits, or with a character that is no digit of the base, a
prefixed token is an EncodingError that names it (R9, R92, R93, R94). The grammar is 92 D9, what the error carries 92 D15. -/
def Obligations.NumericLiteralFields : Prop :=
  (∀ (b : Nat) (c : Char) (k : Nat), b ≤ 16 →
    (digitOf b c = some k ↔
      k < b ∧ (['0', '1', '2', '3', '4', '5', '6', '7', '8', '9', 'a', 'b', 'c', 'd', 'e', 'f'][k]? = some c ∨ ['0', '1', '2', '3', '4', '5', '6', '7', '8', '9', 'A', 'B', 'C', 'D', 'E', 'F'][k]? = some c))) ∧
  (∀ (b : Nat) (d : Text), parseBase b d =
    if d ≠ [] ∧ ∀ c ∈ d, (digitOf b c).isSome = true
      then some (d.foldl (fun v c => b * v + (digitOf b c).getD 0) 0) else none) ∧
  (∀ (mn : Mnemonic) (w pc : Nat) (lt : LabelTable) (d : Text),
    encodeOperand mn w pc lt (.hex d) =
      (match parseBase 16 d with | some v => .ok (render v w) | none => .error (.encodingError ('0' :: 'x' :: d))) ∧
    encodeOperand mn w pc lt (.bin d) =
      (match parseBase 2 d with | some v => .ok (render v w) | none => .error (.encodingError ('0' :: 'b' :: d))) ∧
    (allDecimal d = true → ∃ v, parseBase 10 d = some v ∧ encodeOperand mn w pc lt (.dec d) = .ok (render v w)))

/-- A register token gives its letter's position in the alphabet, in exactly 4 bits, whatever the opcode and the width asked (R95). -/
def Obligations.RegisterFieldIsFourBits : Prop :=
  ∀ (mn : Mnemonic) (w pc : Nat) (lt : LabelTable) (c : Char) (k : Nat),
    ['A', 'B', 'C', 'D', 'E', 'F', 'G', 'H', 'I', 'J', 'K', 'L', 'M', 'N', 'O', 'P'][k]? = some (upperChar c) →
      encodeOperand mn w pc lt (Operand.ofToken [c]) = .ok (render k 4) ∧ (render k 4).length = 4

/-- Under `JMP` a label is its recorded address verbatim, at the width asked; `pc` is not read; an undeclared name is a LabelError (R96). -/
def Obligations.LabelUnderJmpIsDirect : Prop :=
  ∀ (n : Text) (w pc : Nat) (lt : LabelTable),
    (∀ l, lt.get n = some l → encodeOperand .jmp w pc lt (.label n) = .ok (render l w)) ∧
    (lt.has n = false → encodeOperand .jmp w pc lt (.label n) = .error (.labelError n))

/-- Under every other opcode a label is the distance from the current `pc` (R97, R98): behind it a NegativeJumpError, and the +15 never applies.
Offset 0 as 0 is 92 D6, the width 92 D8, the payload 92 D15. -/
def Obligations.LabelElsewhereIsForwardOffset : Prop :=
  ∀ (mn : Mnemonic) (n : Text) (w pc : Nat) (lt : LabelTable), mn ≠ .jmp →
    (∀ l, lt.get n = some l → l < pc → encodeOperand mn w pc lt (.label n) = .error (.negativeJumpError n)) ∧
    (∀ l, lt.get n = some l → pc ≤ l → encodeOperand mn w pc lt (.label n) = .ok (render (l - pc) w)) ∧
    (lt.has n = false → encodeOperand mn w pc lt (.label n) = .error (.labelError n))

/-- `bin(v)` is the shortest bit string of value `v` that is not empty (R9); `render(v, w)` has value `v` and at least `w` bits, exactly `w` when
`v < 2^w` and only then; no digit is cut off (R99). -/
def Obligations.RenderKeepsEveryDigit : Prop :=
  ∀ v w : Nat, 1 ≤ w →
    (bin v ≠ [] ∧ valBits (bin v) = v ∧ ∀ s : Bits, s ≠ [] → valBits s = v → (bin v).length ≤ s.length) ∧
    valBits (render v w) = v ∧ (render v w).length = max w (bin v).length ∧ ((render v w).length = w ↔ v < 2 ^ w)

/-- The Operand Encoder ends in a field of at least 4 bits or in one of its three errors, which names the token; NegativeJumpError never under
`JMP` (R100, R90). Payloads: 92 D15. -/
def Obligations.OperandEncoderOutcomes : Prop :=
  ∀ (mn : Mnemonic) (w pc : Nat) (lt : LabelTable) (t : Text), 4 ≤ w →
    (∃ f, encodeOperand mn w pc lt (Operand.ofToken t) = .ok f ∧ 4 ≤ f.length) ∨
    encodeOperand mn w pc lt (Operand.ofToken t) = .error (.encodingError t) ∨
    encodeOperand mn w pc lt (Operand.ofToken t) = .error (.labelError t) ∨
    (mn ≠ .jmp ∧ encodeOperand mn w pc lt (Operand.ofToken t) = .error (.negativeJumpError t))

/-- `pc` reaches the outcome only through a label operand under an opcode other than `JMP`, the Label Table only through a label operand
(R100 f, R133 d). -/
def Obligations.OnlyLabelOperandsReadState : Prop :=
  ∀ (T : Tables) (mn : Mnemonic) (ops : List Operand) (pc pc' : Nat) (lt lt' : LabelTable),
    ((∀ n, .label n ∉ ops) → encodeInstr T mn ops pc lt = encodeInstr T mn ops pc' lt') ∧
    (mn = .jmp → encodeInstr T mn ops pc lt = encodeInstr T mn ops pc' lt)

/-! ### The Instruction Encoder -/

/-- The operand width is 4 under `ADI` and `CMPJ` and 8 under every other mnemonic, one width for every position: the fields a word is made of are
the operands' encodings at that width (R63). -/
def Obligations.OperandWidthOfMnemonic : Prop :=
  ∀ (T : Tables) (mn : Mnemonic) (ops : List Operand) (pc : Nat) (lt : LabelTable),
    opWidth mn = (if mn = .adi ∨ mn = .cmpj then 4 else 8) ∧
    (∀ s, encodeInstr T mn ops pc lt = .ok s → ∃ (code : BitVec 4) (fs : List Bits),
      T.lookup mn = some (code, ops.length) ∧ fs.length = ops.length ∧
      (∀ (k : Nat) (o : Operand), ops[k]? = some o → ∃ f, fs[k]? = some f ∧ encodeOperand mn (opWidth mn) pc lt o = .ok f) ∧
      s = pad16 (bitsOf code ++ joinFields mn fs))

/-- The meanings written from the per-mnemonic rules R122 to R131 agree with the one algorithm of R121, in every state. -/
def Obligations.MeaningsFollowTheAlgorithm : Prop :=
  ∀ (i : Instr) (s : State), exec i s = instrLine s (encodeInstr tables i.mnemonic i.operands s.pc s.lt)

/-- The word is the code, the fields with the filler, and zeros on the right: `16 - 4 - (sum of field widths, filler included)` of them when that is
positive and none otherwise (R65). -/
def Obligations.PadFillsTheWord : Prop :=
  ∀ (T : Tables) (mn : Mnemonic) (ops : List Operand) (pc : Nat) (lt : LabelTable) (code : BitVec 4) (n : Nat) (fs : List Bits) (s : Bits),
    T.lookup mn = some (code, n) → encodeOperands mn (opWidth mn) pc lt ops = .ok fs → encodeInstr T mn ops pc lt = .ok s →
      s = bitsOf code ++ joinFields mn fs ++
        zeros (16 - 4 - ((fs.map List.length).sum + if mn = .inc ∨ mn = .dec then 4 else 0))

/-- Every word has at least 16 bits and begins with the code of its mnemonic; it is overlong exactly when code, filler and fields exceed 16 bits, and
`word16` is its value when it is not (R132, R133 b c; `word16` is 92 D3). -/
def Obligations.WordLengthAndOverlong : Prop :=
  ∀ (T : Tables) (mn : Mnemonic) (ops : List Operand) (pc : Nat) (lt : LabelTable) (s : Bits),
    encodeInstr T mn ops pc lt = .ok s →
      16 ≤ s.length ∧ (∃ code n, T.lookup mn = some (code, n) ∧ s.take 4 = bitsOf code) ∧
      (∀ fs, encodeOperands mn (opWidth mn) pc lt ops = .ok fs →
        (overlong (.ok s) = true ↔ 16 < 4 + (if mn = .inc ∨ mn = .dec then 4 else 0) + (fs.map List.length).sum)) ∧
      (overlong (.ok s) = false → ∃ w, word16 (.ok s) = some w ∧ bitsOf w = s) ∧
      (overlong (.ok s) = true → word16 (.ok s) = none)

/-- `HALT`: with no operand the word of sixteen zeros, the same as the fill word, whatever `pc` and the table; with operands an ArityError; in any case
of its letters (R122). -/
def Obligations.HaltWord : Prop :=
  (∀ (T : Tables) (pc : Nat) (lt : LabelTable), encodeInstr T .halt [] pc lt = .ok (List.replicate 16 false)) ∧
  (∀ (T : Tables) (o : Operand) (ops : List Operand) (pc : Nat) (lt : LabelTable),
    encodeInstr T .halt (o :: ops) pc lt = .error (.arityError ['H', 'A', 'L', 'T'] (ops.length + 1) 0)) ∧
  (∀ s : State, s.pass = .emit → s.outAddr < 256 → exec (.halt []) s = .next (s.emit (List.replicate 16 false))) ∧
  (∀ (s : State) (o : Operand) (ops : List Operand), s.pass = .emit → s.outAddr < 256 →
    exec (.halt (o :: ops)) s = .next (s.abort (.arityError ['H', 'A', 'L', 'T'] (ops.length + 1) 0))) ∧
  (∀ t : Text, upper t = ['H', 'A', 'L', 'T'] → Mnemonic.ofToken t = .halt) ∧
  (∀ (m : Memory) (a : Nat) (w : Bits), m.fill.unlisted a = some w → w = List.replicate 16 false)

/-- `NOP`: with no operand `1111` and twelve zeros, whatever `pc` and the table; with operands an ArityError; in any case of its letters (R130). -/
def Obligations.NopWord : Prop :=
  (∀ (T : Tables) (pc : Nat) (lt : LabelTable),
    encodeInstr T .nop [] pc lt = .ok (List.replicate 4 true ++ List.replicate 12 false)) ∧
  (∀ (T : Tables) (o : Operand) (ops : List Operand) (pc : Nat) (lt : LabelTable),
    encodeInstr T .nop (o :: ops) pc lt = .error (.arityError ['N', 'O', 'P'] (ops.length + 1) 0)) ∧
  (∀ s : State, s.pass = .emit → s.outAddr < 256 →
    exec (.nop []) s = .next (s.emit (List.replicate 4 true ++ List.replicate 12 false))) ∧
  (∀ (s : State) (o : Operand) (ops : List Operand), s.pass = .emit → s.outAddr < 256 →
    exec (.nop (o :: ops)) s = .next (s.abort (.arityError ['N', 'O', 'P'] (ops.length + 1) 0))) ∧
  (∀ t : Text, upper t = ['N', 'O', 'P'] → Mnemonic.ofToken t = .nop)

/-- `LDI` with two operands that have fields: `0001`, the two fields at width 8, the pad, written at `out_addr` (R123, R157). -/
def Obligations.LdiWritesItsWord : Prop :=
  ∀ (s : State) (a b : Operand) (fa fb : Bits), s.pass = .emit → s.outAddr < 256 →
    encodeOperand .ldi 8 s.pc s.lt a = .ok fa → encodeOperand .ldi 8 s.pc s.lt b = .ok fb →
      exec (.ldi [a, b]) s = .next (s.emit (pad16 ([false, false, false, true] ++ fa ++ fb)))

/-- `ADD` with three operands that have fields: `P_ADD`, the three fields at width 8, the pad, written at `out_addr` (R124, R157). -/
def Obligations.AddWritesItsWord : Prop :=
  ∀ (s : State) (a b c : Operand) (fa fb fc : Bits), s.pass = .emit → s.outAddr < 256 →
    encodeOperand .add 8 s.pc s.lt a = .ok fa → encodeOperand .add 8 s.pc s.lt b = .ok fb →
    encodeOperand .add 8 s.pc s.lt c = .ok fc →
      exec (.add [a, b, c]) s = .next (s.emit (pad16 (bitsOf Config.pAdd ++ fa ++ fb ++ fc)))

/-- `ADI` and `CMPJ` with as many operands as their open arity and a field for each at width 4: the code, the fields in order, the pad, written at
`out_addr` (R125, R126, R157). -/
def Obligations.NarrowWriteTheirWord : Prop :=
  ∀ (s : State) (ops : List Operand) (fs : List Bits), s.pass = .emit → s.outAddr < 256 →
    (ops.length = tables.aAdi → encodeOperands .adi 4 s.pc s.lt ops = .ok fs →
      exec (.adi ops) s = .next (s.emit (pad16 (bitsOf Config.pAdi ++ fs.flatten)))) ∧
    (ops.length = tables.aCmpj → encodeOperands .cmpj 4 s.pc s.lt ops = .ok fs →
      exec (.cmpj ops) s = .next (s.emit (pad16 (bitsOf Config.pCmpj ++ fs.flatten))))

/-- `DEC` and `INC` with two operands that have fields: the code, the first field, four zeros, the second field, the pad, written at `out_addr`
(R127, R128, R157). -/
def Obligations.GapWriteTheirWord : Prop :=
  ∀ (s : State) (a b : Operand) (fa fb : Bits), s.pass = .emit → s.outAddr < 256 →
    (encodeOperand .dec 8 s.pc s.lt a = .ok fa → encodeOperand .dec 8 s.pc s.lt b = .ok fb →
      exec (.dec [a, b]) s = .next (s.emit (pad16 (bitsOf Config.pDec ++ fa ++ List.replicate 4 false ++ fb)))) ∧
    (encodeOperand .inc 8 s.pc s.lt a = .ok fa → encodeOperand .inc 8 s.pc s.lt b = .ok fb →
      exec (.inc [a, b]) s = .next (s.emit (pad16 (bitsOf Config.pInc ++ fa ++ List.replicate 4 false ++ fb))))

/-- `JMP` with one operand that has a field: `P_JMP`, the field at width 8, the pad, written at `out_addr`; a label gives its address wherever the
`JMP` stands (R129, R157). -/
def Obligations.JmpWritesItsWord : Prop :=
  ∀ (s : State) (t : Operand) (f : Bits), s.pass = .emit → s.outAddr < 256 →
    (encodeOperand .jmp 8 s.pc s.lt t = .ok f → exec (.jmp [t]) s = .next (s.emit (pad16 (bitsOf Config.pJmp ++ f)))) ∧
    (∀ n l, s.lt.get n = some l → exec (.jmp [.label n]) s = .next (s.emit (pad16 (bitsOf Config.pJmp ++ render l 8))))

/-- Any further mnemonic, whatever `EXTRA` holds: its word at width 8 with relative labels and no filler if it is in the tables and its operands are
in number and have fields; otherwise the abort with the first error met (R131, R157, R181; order: 92 D5). -/
def Obligations.ExtraWritesItsWordOrAborts : Prop :=
  ∀ (s : State) (mn : Text) (ops : List Operand), s.pass = .emit → s.outAddr < 256 →
    exec (.extra mn ops) s = .next
      (match tables.lookup (.extra mn) with
       | none => s.abort (.unknownOpcodeError mn)
       | some (code, n) =>
         if ops.length ≠ n then s.abort (.arityError mn ops.length n)
         else
           match encodeOperands (.extra mn) 8 s.pc s.lt ops with
           | .error e => s.abort e
           | .ok fs => s.emit (pad16 (bitsOf code ++ fs.flatten)))

/-- The exact formats RI8 of `LDI` (a register and a literal below 256), RRR of `ADD` and R0R of `DEC` and `INC` (registers)
(R67, R123, R124, R127, R128). -/
def Obligations.RegisterFormats : Prop :=
  ∀ (T : Tables) (r q p : Reg) (pc : Nat) (lt : LabelTable),
    (∀ o v, literalValue o = some v → v < 256 →
      encodeInstr T .ldi [.reg r, o] pc lt = .ok (bitsOf (0b0001#4 ++ BitVec.ofNat 4 r.val ++ BitVec.ofNat 8 v))) ∧
    encodeInstr T .add [.reg r, .reg q, .reg p] pc lt =
      .ok (bitsOf (T.pAdd ++ BitVec.ofNat 4 r.val ++ BitVec.ofNat 4 q.val ++ BitVec.ofNat 4 p.val)) ∧
    encodeInstr T .dec [.reg r, .reg q] pc lt = .ok (bitsOf (T.pDec ++ BitVec.ofNat 4 r.val ++ 0#4 ++ BitVec.ofNat 4 q.val)) ∧
    encodeInstr T .inc [.reg r, .reg q] pc lt = .ok (bitsOf (T.pInc ++ BitVec.ofNat 4 r.val ++ 0#4 ++ BitVec.ofNat 4 q.val))

/-- The exact format RRN4 of `ADI` and `CMPJ` where their open arity is 3: two registers and a literal below 16, or a label up to 15 slots ahead
(R67, R125, R126; the offset is 92 D6, D7, D8). -/
def Obligations.NarrowFormatRRN4 : Prop :=
  ∀ (T : Tables) (r q : Reg) (o : Operand) (v pc : Nat) (lt : LabelTable), v < 16 →
    (literalValue o = some v ∨ ∃ n, o = .label n ∧ lt.get n = some (pc + v)) →
    (T.aAdi = 3 → encodeInstr T .adi [.reg r, .reg q, o] pc lt =
      .ok (bitsOf (T.pAdi ++ BitVec.ofNat 4 r.val ++ BitVec.ofNat 4 q.val ++ BitVec.ofNat 4 v))) ∧
    (T.aCmpj = 3 → encodeInstr T .cmpj [.reg r, .reg q, o] pc lt =
      .ok (bitsOf (T.pCmpj ++ BitVec.ofNat 4 r.val ++ BitVec.ofNat 4 q.val ++ BitVec.ofNat 4 v)))

/-- The exact format L8 of `JMP`: an address below 256 in bits 11 to 4, from a label or a literal; a register in bits 11 to 8 (R67, R129). -/
def Obligations.JmpFormatL8 : Prop :=
  ∀ (T : Tables) (o : Operand) (v pc : Nat) (lt : LabelTable) (r : Reg),
    (v < 256 → (literalValue o = some v ∨ ∃ n, o = .label n ∧ lt.get n = some v) →
      encodeInstr T .jmp [o] pc lt = .ok (bitsOf (T.pJmp ++ BitVec.ofNat 8 v ++ 0#4))) ∧
    encodeInstr T .jmp [.reg r] pc lt = .ok (bitsOf (T.pJmp ++ BitVec.ofNat 4 r.val ++ 0#8))

/-- A wrong operand count under a known mnemonic, too many as well as too few, is an ArityError with the two counts (R182). -/
def Obligations.ArityErrorOnWrongCount : Prop :=
  (∀ (T : Tables) (mn : Mnemonic) (ops : List Operand) (pc : Nat) (lt : LabelTable) (code : BitVec 4) (n : Nat),
    T.lookup mn = some (code, n) → ops.length ≠ n →
      encodeInstr T mn ops pc lt = .error (.arityError mn.name ops.length n)) ∧
  (∀ (i : Instr) (s : State) (code : BitVec 4) (n : Nat), s.pass = .emit → s.outAddr < 256 →
    tables.lookup i.mnemonic = some (code, n) → i.operands.length ≠ n →
      exec i s = .next (s.abort (.arityError i.mnemonic.name i.operands.length n)))

/-- A mnemonic of no table is an UnknownOpcodeError whatever its operands, and aborts in pass 2 (R181; that it carries the mnemonic is 92 D15). -/
def Obligations.UnknownMnemonicAborts : Prop :=
  (∀ (T : Tables) (mn : Mnemonic) (ops : List Operand) (pc : Nat) (lt : LabelTable), T.lookup mn = none →
    encodeInstr T mn ops pc lt = .error (.unknownOpcodeError mn.name)) ∧
  (∀ (mn : Text) (ops : List Operand) (s : State), s.pass = .emit → s.outAddr < 256 → tables.lookup (.extra mn) = none →
    exec (.extra mn ops) s = .next (s.abort (.unknownOpcodeError mn)))

/-- A label and an instruction cannot share a line: a first token that ends in a colon is in no table, whatever `EXTRA` holds, so the
line is an instruction line that aborts pass 2 with UnknownOpcodeError (R78). That no row of `EXTRA` ends in a colon is R78's own derivation. -/
def Obligations.LabelBeforeInstructionAborts : Prop :=
  (∀ n : Text, tables.lookup (.extra (n ++ [':'])) = none) ∧
  (∀ (s : State) (raw n : Text) (t : Text) (toks : List Text), s.pass = .emit → s.outAddr < 256 → admitted s.src → s.currentLine = some raw →
    split (clean raw) = (n ++ [':']) :: t :: toks → endsInColon (clean raw) = false →
      step s = .next { s with pass := .aborted, report := some ⟨.unknownOpcodeError (upper n ++ [':']), s.lineNo, raw⟩ })

/-- With the right count, the leftmost operand that fails is the one reported; operands to its right are not looked at (R190; the order is 92 D5). -/
def Obligations.LeftmostFailingOperandReported : Prop :=
  ∀ (T : Tables) (mn : Mnemonic) (before after : List Operand) (o : Operand) (pc : Nat) (lt : LabelTable) (code : BitVec 4)
    (fs : List Bits) (e : ErrorInfo),
    T.lookup mn = some (code, before.length + 1 + after.length) → encodeOperands mn (opWidth mn) pc lt before = .ok fs →
    encodeOperand mn (opWidth mn) pc lt o = .error e →
      encodeInstr T mn (before ++ o :: after) pc lt = .error e

/-- The block's ports: a word with status 0, or an error with the code of its kind, one of five; `overlong` and `word16` only beside a word (R32, R180).
The code of each kind (R189). The codes are 92 D15, the ports 92 D2. -/
def Obligations.BlockPorts : Prop :=
  (statusCode none = 0 ∧ (∀ m, statusCode (some (.unknownOpcodeError m)) = 1) ∧ (∀ m g n, statusCode (some (.arityError m g n)) = 2) ∧
    (∀ t, statusCode (some (.encodingError t)) = 3) ∧ (∀ n, statusCode (some (.labelError n)) = 4) ∧
    (∀ n, statusCode (some (.negativeJumpError n)) = 5) ∧ (∀ n, statusCode (some (.duplicateLabelError n)) = 6) ∧
    (∀ n, statusCode (some (.shortLabelError n)) = 7) ∧ statusCode (some .inputNotFoundError) = 8) ∧
  ∀ (T : Tables) (mnRaw : Text) (toks : List Text) (pc : Nat) (lt : LabelTable),
    (∃ s, blockOut T mnRaw toks pc lt = ⟨0, none, some s, some (decide (16 < s.length)), word16 (.ok s)⟩ ∧
      encodeTokens T mnRaw toks pc lt = .ok s) ∨
    (∃ e, blockOut T mnRaw toks pc lt = ⟨statusCode (some e), some e, none, none, none⟩ ∧
      encodeTokens T mnRaw toks pc lt = .error e ∧ 1 ≤ statusCode (some e) ∧ statusCode (some e) ≤ 5)

/-- The line that stands for a table word assembles to that word, at any `pc` and with any Label Table, and the host's fetch places it where the next
step runs it (R67, R71; the choice of line and its placing are the model's, log entry 19). -/
def Obligations.TableWordLinesAssemble : Prop :=
  ∀ (w : Nat) (i : Instr), decodeTableWord 16 w = some i →
    (∀ (pc : Nat) (lt : LabelTable), encodeInstr tables i.mnemonic i.operands pc lt = .ok (bitsOf (BitVec.ofNat 16 w))) ∧
    (∀ s : State, step (s.withFetchWord 16 w) = exec i (s.withFetchWord 16 w))

/-! ### The sequencer -/

/-- An instruction line in pass 1 adds 1 to `pc` and changes nothing else but the line number; no operand is looked at (R156). -/
def Obligations.PassOneCountsInstructionLines : Prop :=
  ∀ (i : Instr) (s : State), s.pass = .labels → exec i s = .next { s with pc := s.pc + 1, lineNo := s.lineNo + 1 }

/-- An instruction line in pass 2: the block is called on the line's own tokens with the current `pc`; an error aborts with the line's number and raw
text; a word is written at `out_addr`, and `out_addr` and `pc` go up by 1 (R157). -/
def Obligations.PassTwoCallsTheBlock : Prop :=
  ∀ (s : State) (raw mn : Text) (toks : List Text), s.pass = .emit → s.outAddr < 256 → admitted s.src → s.currentLine = some raw →
    endsInColon (clean raw) = false → split (clean raw) = mn :: toks →
      step s = .next
        (match encodeTokens tables mn toks s.pc s.lt with
         | .ok w => { s with img := s.img.write s.outAddr w, outAddr := s.outAddr + 1, pc := s.pc + 1, lineNo := s.lineNo + 1 }
         | .error e => { s with pass := .aborted, report := some ⟨e, s.lineNo, raw⟩ })

/-- A label declaration in pass 1: ShortLabelError under two characters, DuplicateLabelError on a name already present, otherwise the entry at the
current `pc`, which stays (R154). Sources with a declared name that holds white space have no run (92 D11). -/
def Obligations.LabelDeclarationInPassOne : Prop :=
  ∀ (s : State) (raw n : Text), s.pass = .labels → admitted s.src → s.currentLine = some raw → readLine raw = .label n →
    (n.length < 2 → step s = .next { s with pass := .aborted, report := some ⟨.shortLabelError n, s.lineNo, raw⟩ }) ∧
    (2 ≤ n.length → s.lt.has n = true →
      step s = .next { s with pass := .aborted, report := some ⟨.duplicateLabelError n, s.lineNo, raw⟩ }) ∧
    (2 ≤ n.length → s.lt.has n = false → ∃ t, step s = .next t ∧ t = { s with lt := t.lt, lineNo := s.lineNo + 1 } ∧
      ∀ m, t.lt.get m = if m = n then some s.pc else s.lt.get m)

/-- A label declaration in pass 2 raises no error and changes nothing but the line number, which the sequencer moves to the next line (R155, R165). -/
def Obligations.LabelDeclarationInPassTwo : Prop :=
  ∀ (s : State) (raw n : Text), s.pass = .emit → admitted s.src → s.currentLine = some raw → readLine raw = .label n →
    step s = .next { s with lineNo := s.lineNo + 1 }

/-- A blank or comment line changes nothing but the line number, in either pass (R152). -/
def Obligations.BlankLinesAreSkipped : Prop :=
  ∀ (s : State) (raw : Text), s.pass = .labels ∨ s.pass = .emit → admitted s.src → s.currentLine = some raw → clean raw = [] →
    step s = .next { s with lineNo := s.lineNo + 1 }

/-- After the last line of pass 1: pass 2 from line 1 with `pc = 0`, everything else kept (R158). That it is a step of its own is log entry 18. -/
def Obligations.PassTransition : Prop :=
  ∀ s : State, s.pass = .labels → admitted s.src → s.lineNo = s.src.length + 1 →
    step s = .next { s with pass := .emit, pc := 0, lineNo := 1 }

/-- After the last line of pass 2: the fill of every address from `out_addr` to 255 with the zero word, the terminator, `DONE` (R159). That no record
stands from `out_addr` on and that `out_addr` is below 256 (92 D14, log entry 12) are invariants of the run; the start of the fill is 90 C2 (log
entry 28). That every field but `pass` and the image keeps its value, `pc` and `line_no` among them, is the model's (log entry 29). -/
def Obligations.EndOfSuccessfulRun : Prop :=
  ∀ s : State, s.RunInv → s.pass = .emit → s.lineNo = s.src.length + 1 →
    ∃ t, step s = .next t ∧ t = { s with pass := .done, img := t.img } ∧ t.img.records = s.img.records ∧
      t.img.terminated = true ∧ (∀ a, s.outAddr ≤ a → a ≤ 255 → t.image a = some (List.replicate 16 false)) ∧
      ∀ a, a < s.outAddr → t.image a = s.img.read a

/-- `DONE` and `ABORTED` have no successor: no step and no instruction runs in them (R151). Stopping by a fault is log entry 15. -/
def Obligations.NothingFollowsTheEnd : Prop :=
  ∀ (s : State) (i : Instr),
    (s.pass = .done → step s = .fault .runDone ∧ exec i s = .fault .runDone) ∧
    (s.pass = .aborted → step s = .fault .runAborted ∧ exec i s = .fault .runAborted)

/-- What the model gives no run to, refused whole at any line of it, whatever stands before: a source of 256 or more instruction lines (R52, 92 D14), and
a source that declares a name with white space (R153, 92 D11). -/
def Obligations.RefusedSources : Prop :=
  ∀ s : State, s.pass = .labels ∨ s.pass = .emit → s.lineNo ≠ 0 →
    (256 ≤ instrCount s.src → step s = .refused .programTooLong) ∧
    (instrCount s.src < 256 → (∃ e ∈ declared s.src 0, e.1.any isSpace = true) → step s = .refused .labelNameWithWhitespace)

/-- An abort changes `pass` and the report and nothing else: no record for the failing line, no fill, no terminator; the report names the line's number
and its raw text (R160, R192, R193). Pass 1 raises only ShortLabelError and DuplicateLabelError, pass 2 only the block's five errors (R161 c). -/
def Obligations.AbortKeepsEverythingElse : Prop :=
  ∀ s t : State, step s = .next t → t.pass = .aborted →
    ∃ raw e, s.currentLine = some raw ∧ t = { s with pass := .aborted, report := some ⟨e, s.lineNo, raw⟩ } ∧
      (s.pass = .labels → ∃ n, e = .shortLabelError n ∨ e = .duplicateLabelError n) ∧
      (s.pass = .emit → statusCode (some e) ≤ 5)

/-- The state machine moves only along `PASS_LABELS`, `PASS_EMIT`, `DONE`, or to `ABORTED` (R24, R151). -/
def Obligations.PassMovesForward : Prop :=
  ∀ s t : State, step s = .next t →
    (s.pass = .labels ∧ (t.pass = .labels ∨ t.pass = .emit ∨ t.pass = .aborted)) ∨
    (s.pass = .emit ∧ (t.pass = .emit ∨ t.pass = .done ∨ t.pass = .aborted))

/-- The frame of every instruction, in both passes: the source and the Label Table stay, the marks stay; pass 1 leaves the image and `out_addr`; an abort
leaves all but `pass` and the report; and every address of the image but `out_addr` (written only by a pass-2 line that does not abort) reads
as before (R20, R156, R157, R192). -/
def Obligations.InstructionFrame : Prop :=
  ∀ (i : Instr) (s t : State), exec i s = .next t →
    t.src = s.src ∧ t.lt = s.lt ∧ t.img.filled = s.img.filled ∧ t.img.terminated = s.img.terminated ∧
    (s.pass = .labels → t.pass = .labels ∧ t.img = s.img ∧ t.outAddr = s.outAddr) ∧
    (t.pass = .aborted → t.img = s.img ∧ t.outAddr = s.outAddr ∧ t.pc = s.pc ∧ t.lineNo = s.lineNo) ∧
    (t.pass ≠ .aborted → t.pass = s.pass ∧ t.report = s.report) ∧
    (∀ a, ¬ (s.pass = .emit ∧ t.pass = .emit ∧ a = s.outAddr) → t.img.read a = s.img.read a)

/-- The source is never written, labels are created only in pass 1 and only by a label line, and an entry once made never changes (R27, R41, R58). -/
def Obligations.SourceFixedAndLabelsWriteOnce : Prop :=
  ∀ s t : State, step s = .next t →
    t.src = s.src ∧ (∀ n a, s.lt.get n = some a → t.lt.get n = some a) ∧
    (t.lt ≠ s.lt → s.pass = .labels ∧ ∃ raw n, s.currentLine = some raw ∧ readLine raw = .label n)

/-- On a run a step leaves the records as they are or appends one at `out_addr`, and only in pass 2 (R45). -/
def Obligations.RecordsAreAppended : Prop :=
  ∀ s t : State, s.RunInv → step s = .next t →
    (t.img.records = s.img.records ∧ t.outAddr = s.outAddr) ∨
    (s.pass = .emit ∧ t.outAddr = s.outAddr + 1 ∧ ∃ w, t.img.records = s.img.records ++ [⟨s.outAddr, w⟩])

/-! ### The run -/

/-- The start of a run: the values of R211 at reset and with any source loaded, and those of pass 2 at the transition, everything else kept. -/
def Obligations.StartOfRunAndOfPassTwo : Prop :=
  (∀ s : State, s = State.reset ∨ (∃ src, s = State.load src) →
    s.lt = [] ∧ s.img = ⟨[], false, false⟩ ∧ s.outAddr = 0 ∧ s.pass = .labels ∧ s.pc = 0 ∧ s.lineNo = 1) ∧
  (∀ s t : State, step s = .next t → s.pass = .labels → t.pass = .emit → t = { s with pc := 0, lineNo := 1, pass := .emit })

/-- A source that cannot be opened is an InputNotFoundError before any run exists; any text starts a run over its lines (R188). -/
def Obligations.StartNeedsASource : Prop :=
  start none = .error .inputNotFoundError ∧
  ∀ text, start (some text) = .ok (State.load (splitLines text)) ∧
    (List.intersperse ['\n'] (splitLines text)).flatten = text ∧ ∀ l ∈ splitLines text, '\n' ∉ l

/-- The canonical forms of the two memories, rising addresses inside the image and rising names, are kept by every step (R27, R44, R45). -/
def Obligations.MemoryFormsKept : Prop :=
  ∀ s t : State, s.img.wf → s.lt.wf → step s = .next t → t.img.wf ∧ t.lt.wf

/-- The invariant of a run (R161 and the rules its clauses name) is kept by every step. Of its clauses these are not the spec's rules alone: `pc = out_addr`
in `DONE` too is log entry 29; that a source past pass 1 has a run is 92 D14 and D11, and that declared names hold no white space 92 D11 (log entries 12
and 3); the report is the model's own field (log entry 15); the forms of the image and the Label Table are the model's (log entries 21 and 22). -/
def Obligations.RunInvariantKept : Prop :=
  ∀ s t : State, s.RunInv → step s = .next t → t.RunInv

/-- The invariant of a run holds at reset and at the start of a run on any source. The empty source and the empty report at reset are the model's (log
entries 17 and 15). -/
def Obligations.RunInvariantAtStart : Prop :=
  State.reset.RunInv ∧ ∀ src, (State.load src).RunInv

/-- The image has contents only in `DONE` (R31, R192): then the word of the instruction in slot `a` for every `a` below their number, which is at most
255, encoded at `pc = a`; the zero word from there to 255; nothing above (R48). A record that is not 16 bits long has no 16-bit reading and makes the
image unloadable (R132, 92 D3). -/
def Obligations.FinalImage : Prop :=
  (∀ s : State, s.pass ≠ .done → ∀ a, s.image a = none) ∧
  (∀ s : State, s.RunInv → s.pass = .done → instrCount s.src < 256 ∧
    (∀ a, (∀ i, (instrs s.src)[a]? = some i →
        ∃ w, encodeInstr tables i.mnemonic i.operands a s.lt = .ok w ∧ s.image a = some w) ∧
      (instrCount s.src ≤ a → a ≤ 255 → s.image a = some (List.replicate 16 false)) ∧
      (instrCount s.src ≤ a → 255 < a → s.image a = none)) ∧
    (s.img.loadable = true ↔ ∀ a w, s.image a = some w → w.length = 16)) ∧
  (∀ (m : Memory) (a : Nat) (s : Bits), m.read a = some s →
    (s.length = 16 → ∃ w, m.word16At a = some w ∧ bitsOf w = s) ∧ (s.length ≠ 16 → m.word16At a = none ∧ m.loadable = false))

/-- A run ends: each step leaves fewer steps to take, and no more than two for each line and one for each transition (R223). -/
def Obligations.StepsLeftDecrease : Prop :=
  (∀ s t : State, s.RunInv → step s = .next t → stepsLeft t < stepsLeft s) ∧
  (∀ src, stepsLeft (State.load src) = 2 * src.length + 2)

/-- The stepping machine on any source ends as R165's `Run(SRC)` does, within two steps a line and one for each transition: the same Label Table and
image, the same abort after the same records, or the same refusal (the refusals are 92 D11 and D14). -/
def Obligations.RunMatchesPseudocode : Prop :=
  ∀ src : List Text,
    match runSource tables src with
    | .done lt img => ∃ k ≤ 2 * src.length + 2, ∃ t : State,
        Host.Core.run Sys2Proof.core k (State.load src) = .next t ∧ t.pass = .done ∧ t.lt = lt ∧ t.img = img
    | .aborted rep records => ∃ k ≤ 2 * src.length + 2, ∃ t : State,
        Host.Core.run Sys2Proof.core k (State.load src) = .next t ∧ t.pass = .aborted ∧ t.report = some rep ∧ t.img.records = records
    | .refused r => ∃ k ≤ 2 * src.length + 2, Host.Core.run Sys2Proof.core k (State.load src) = .refused r

/-- The sources refused are those of 256 or more instruction lines and those that declare a name with white space, and no others (R52, R153; 92 D11,
D14): on any other, no step of a run is refused. -/
def Obligations.AdmittedSourcesAreRun : Prop :=
  (∀ src : List Text, (∃ r, runSource tables src = .refused r) ↔ ¬ admitted src) ∧
  (∀ s : State, s.RunInv → admitted s.src → ∀ r, step s ≠ .refused r)
end

