-- ==== Sys2Proof/Laws/State.lean ====
section
/-! SUPPORT. One lemma per field per update of the state, and per part of the image per update of it. -/

namespace Sys2Proof.Machine

@[simp] theorem State.skipLine_src (s : State) : s.skipLine.src = s.src := rfl
@[simp] theorem State.skipLine_pass (s : State) : s.skipLine.pass = s.pass := rfl
@[simp] theorem State.skipLine_pc (s : State) : s.skipLine.pc = s.pc := rfl
@[simp] theorem State.skipLine_outAddr (s : State) : s.skipLine.outAddr = s.outAddr := rfl
@[simp] theorem State.skipLine_lineNo (s : State) : s.skipLine.lineNo = s.lineNo + 1 := rfl
@[simp] theorem State.skipLine_lt (s : State) : s.skipLine.lt = s.lt := rfl
@[simp] theorem State.skipLine_img (s : State) : s.skipLine.img = s.img := rfl
@[simp] theorem State.skipLine_report (s : State) : s.skipLine.report = s.report := rfl

@[simp] theorem State.countLine_src (s : State) : s.countLine.src = s.src := rfl
@[simp] theorem State.countLine_pass (s : State) : s.countLine.pass = s.pass := rfl
@[simp] theorem State.countLine_pc (s : State) : s.countLine.pc = s.pc + 1 := rfl
@[simp] theorem State.countLine_outAddr (s : State) : s.countLine.outAddr = s.outAddr := rfl
@[simp] theorem State.countLine_lineNo (s : State) : s.countLine.lineNo = s.lineNo + 1 := rfl
@[simp] theorem State.countLine_lt (s : State) : s.countLine.lt = s.lt := rfl
@[simp] theorem State.countLine_img (s : State) : s.countLine.img = s.img := rfl
@[simp] theorem State.countLine_report (s : State) : s.countLine.report = s.report := rfl

@[simp] theorem State.declare_src (s : State) (n : Text) : (s.declare n).src = s.src := rfl
@[simp] theorem State.declare_pass (s : State) (n : Text) : (s.declare n).pass = s.pass := rfl
@[simp] theorem State.declare_pc (s : State) (n : Text) : (s.declare n).pc = s.pc := rfl
@[simp] theorem State.declare_outAddr (s : State) (n : Text) : (s.declare n).outAddr = s.outAddr := rfl
@[simp] theorem State.declare_lineNo (s : State) (n : Text) : (s.declare n).lineNo = s.lineNo + 1 := rfl
@[simp] theorem State.declare_lt (s : State) (n : Text) : (s.declare n).lt = s.lt.insert n s.pc := rfl
@[simp] theorem State.declare_img (s : State) (n : Text) : (s.declare n).img = s.img := rfl
@[simp] theorem State.declare_report (s : State) (n : Text) : (s.declare n).report = s.report := rfl

@[simp] theorem State.emit_src (s : State) (w : Bits) : (s.emit w).src = s.src := rfl
@[simp] theorem State.emit_pass (s : State) (w : Bits) : (s.emit w).pass = s.pass := rfl
@[simp] theorem State.emit_pc (s : State) (w : Bits) : (s.emit w).pc = s.pc + 1 := rfl
@[simp] theorem State.emit_outAddr (s : State) (w : Bits) : (s.emit w).outAddr = s.outAddr + 1 := rfl
@[simp] theorem State.emit_lineNo (s : State) (w : Bits) : (s.emit w).lineNo = s.lineNo + 1 := rfl
@[simp] theorem State.emit_lt (s : State) (w : Bits) : (s.emit w).lt = s.lt := rfl
@[simp] theorem State.emit_img (s : State) (w : Bits) : (s.emit w).img = s.img.write s.outAddr w := rfl
@[simp] theorem State.emit_report (s : State) (w : Bits) : (s.emit w).report = s.report := rfl

@[simp] theorem State.abort_src (s : State) (e : ErrorInfo) : (s.abort e).src = s.src := rfl
@[simp] theorem State.abort_pass (s : State) (e : ErrorInfo) : (s.abort e).pass = .aborted := rfl
@[simp] theorem State.abort_pc (s : State) (e : ErrorInfo) : (s.abort e).pc = s.pc := rfl
@[simp] theorem State.abort_outAddr (s : State) (e : ErrorInfo) : (s.abort e).outAddr = s.outAddr := rfl
@[simp] theorem State.abort_lineNo (s : State) (e : ErrorInfo) : (s.abort e).lineNo = s.lineNo := rfl
@[simp] theorem State.abort_lt (s : State) (e : ErrorInfo) : (s.abort e).lt = s.lt := rfl
@[simp] theorem State.abort_img (s : State) (e : ErrorInfo) : (s.abort e).img = s.img := rfl
@[simp] theorem State.abort_report (s : State) (e : ErrorInfo) : (s.abort e).report = some { error := e, lineNo := s.lineNo, raw := s.rawLine } := rfl

@[simp] theorem State.beginEmit_src (s : State) : s.beginEmit.src = s.src := rfl
@[simp] theorem State.beginEmit_pass (s : State) : s.beginEmit.pass = .emit := rfl
@[simp] theorem State.beginEmit_pc (s : State) : s.beginEmit.pc = 0 := rfl
@[simp] theorem State.beginEmit_outAddr (s : State) : s.beginEmit.outAddr = s.outAddr := rfl
@[simp] theorem State.beginEmit_lineNo (s : State) : s.beginEmit.lineNo = 1 := rfl
@[simp] theorem State.beginEmit_lt (s : State) : s.beginEmit.lt = s.lt := rfl
@[simp] theorem State.beginEmit_img (s : State) : s.beginEmit.img = s.img := rfl
@[simp] theorem State.beginEmit_report (s : State) : s.beginEmit.report = s.report := rfl

@[simp] theorem State.finish_src (s : State) : s.finish.src = s.src := rfl
@[simp] theorem State.finish_pass (s : State) : s.finish.pass = .done := rfl
@[simp] theorem State.finish_pc (s : State) : s.finish.pc = s.pc := rfl
@[simp] theorem State.finish_outAddr (s : State) : s.finish.outAddr = s.outAddr := rfl
@[simp] theorem State.finish_lineNo (s : State) : s.finish.lineNo = s.lineNo := rfl
@[simp] theorem State.finish_lt (s : State) : s.finish.lt = s.lt := rfl
@[simp] theorem State.finish_img (s : State) : s.finish.img = s.img.fill.terminate := rfl
@[simp] theorem State.finish_report (s : State) : s.finish.report = s.report := rfl

@[simp] theorem State.load_src (src : List Text) : (State.load src).src = src := rfl
@[simp] theorem State.load_pass (src : List Text) : (State.load src).pass = .labels := rfl
@[simp] theorem State.load_pc (src : List Text) : (State.load src).pc = 0 := rfl
@[simp] theorem State.load_outAddr (src : List Text) : (State.load src).outAddr = 0 := rfl
@[simp] theorem State.load_lineNo (src : List Text) : (State.load src).lineNo = 1 := rfl
@[simp] theorem State.load_lt (src : List Text) : (State.load src).lt = [] := rfl
@[simp] theorem State.load_img (src : List Text) : (State.load src).img = { records := [], filled := false, terminated := false } := rfl
@[simp] theorem State.load_report (src : List Text) : (State.load src).report = none := rfl

@[simp] theorem State.settle_ok (s : State) (w : Bits) : s.settle (.ok w) = s.emit w := rfl
@[simp] theorem State.settle_error (s : State) (e : ErrorInfo) : s.settle (.error e) = s.abort e := rfl

@[simp] theorem Memory.write_records (m : Memory) (a : Nat) (w : Bits) : (m.write a w).records = putRecord m.records a w := rfl
@[simp] theorem Memory.write_filled (m : Memory) (a : Nat) (w : Bits) : (m.write a w).filled = m.filled := rfl
@[simp] theorem Memory.write_terminated (m : Memory) (a : Nat) (w : Bits) : (m.write a w).terminated = m.terminated := rfl
@[simp] theorem Memory.fill_records (m : Memory) : m.fill.records = m.records := rfl
@[simp] theorem Memory.fill_filled (m : Memory) : m.fill.filled = true := rfl
@[simp] theorem Memory.fill_terminated (m : Memory) : m.fill.terminated = m.terminated := rfl
@[simp] theorem Memory.terminate_records (m : Memory) : m.terminate.records = m.records := rfl
@[simp] theorem Memory.terminate_filled (m : Memory) : m.terminate.filled = m.filled := rfl
@[simp] theorem Memory.terminate_terminated (m : Memory) : m.terminate.terminated = true := rfl

end Sys2Proof.Machine
end

