-- ==== Sys2Proof/Laws/Memory.lean ====
section
/-! SUPPORT. What the operations on the two memories do, and that each keeps its memory's canonical form. -/

namespace Sys2Proof.Machine

/-! ### The Label Table -/

theorem nameBefore_irrefl (n : Text) : nameBefore n n = false := by
  induction n with
  | nil => rfl
  | cons c cs ih => simp [nameBefore, ih]

theorem nameBefore_trans {a b c : Text} (hab : nameBefore a b = true) (hbc : nameBefore b c = true) :
    nameBefore a c = true := by
  induction a generalizing b c with
  | nil =>
    cases c with
    | nil => cases b <;> simp [nameBefore] at hbc
    | cons _ _ => rfl
  | cons x xs ih =>
    cases b with
    | nil => simp [nameBefore] at hab
    | cons y ys =>
      cases c with
      | nil => simp [nameBefore] at hbc
      | cons z zs =>
        simp only [nameBefore, Bool.or_eq_true, decide_eq_true_eq, Bool.and_eq_true, beq_iff_eq] at *
        rcases hab with hab | ⟨rfl, hab⟩ <;> rcases hbc with hbc | ⟨rfl, hbc⟩
        · exact .inl (by omega)
        · exact .inl hab
        · exact .inl hbc
        · exact .inr ⟨rfl, ih hab hbc⟩

theorem nameBefore_total {a b : Text} (hne : a ≠ b) (h : nameBefore a b = false) : nameBefore b a = true := by
  induction a generalizing b with
  | nil =>
    cases b with
    | nil => exact absurd rfl hne
    | cons _ _ => simp [nameBefore] at h
  | cons x xs ih =>
    cases b with
    | nil => rfl
    | cons y ys =>
      simp only [nameBefore, Bool.or_eq_false_iff, decide_eq_false_iff_not, Bool.and_eq_false_iff, beq_eq_false_iff_ne] at h
      simp only [nameBefore, Bool.or_eq_true, decide_eq_true_eq, Bool.and_eq_true, beq_iff_eq]
      by_cases hxy : x = y
      · subst hxy
        exact .inr ⟨rfl, ih (fun e => hne (by rw [e])) (by rcases h.2 with h' | h' <;> simp_all)⟩
      · left
        have : x.toNat ≠ y.toNat := fun e => hxy (Char.toNat_inj.mp e)
        omega

theorem LabelTable.get_insertNew (t : LabelTable) (n m : Text) (a : Nat) (h : t.has n = false) :
    (t.insertNew n a).get m = if m = n then some a else t.get m := by
  induction t with
  | nil => by_cases h : n = m <;> simp [LabelTable.insertNew, LabelTable.get, h, eq_comm]
  | cons e rest ih =>
    obtain ⟨k, b⟩ := e
    by_cases hk : k = n
    · simp [LabelTable.has, LabelTable.get, hk] at h
    · have hr : LabelTable.has rest n = false := by simpa [LabelTable.has, LabelTable.get, hk] using h
      by_cases hb : nameBefore n k = true
      · simp only [LabelTable.insertNew, if_pos hb, LabelTable.get, eq_comm (a := n)]
      · simp only [LabelTable.insertNew, if_neg hb, LabelTable.get, ih hr]
        by_cases hkm : k = m
        · simp [hkm, show ¬ m = n from fun e => hk (hkm.trans e)]
        · simp [hkm]

/-- An inserted name reads as its address if it was absent, and keeps its own if it was not; no other name changes (R41). -/
theorem LabelTable.get_insert (t : LabelTable) (n m : Text) (a : Nat) :
    (t.insert n a).get m = if m = n ∧ t.has n = false then some a else t.get m := by
  by_cases h : t.has n = true
  · simp [LabelTable.insert, h]
  · have h' : t.has n = false := by simpa using h
    simp [LabelTable.insert, h', LabelTable.get_insertNew t n m a h']

theorem LabelTable.mem_insert {t : LabelTable} {n : Text} {a : Nat} {e : Text × Nat} (h : e ∈ t.insert n a) :
    e = (n, a) ∨ e ∈ t := by
  have key : ∀ u : LabelTable, e ∈ u.insertNew n a → e = (n, a) ∨ e ∈ u := by
    intro u
    induction u with
    | nil => intro h; exact .inl (by simpa [LabelTable.insertNew] using h)
    | cons f rest ih =>
      intro h
      simp only [LabelTable.insertNew] at h
      split at h
      · simpa using h
      · rcases List.mem_cons.mp h with rfl | h
        · exact .inr (by simp)
        · rcases ih h with h | h
          · exact .inl h
          · exact .inr (by simp [h])
  by_cases hh : t.has n = true
  · exact .inr (by simpa [LabelTable.insert, hh] using h)
  · exact key t (by simpa [LabelTable.insert, hh] using h)

/-- `LT_insert` keeps the table's canonical form. -/
theorem LabelTable.wf_insert {t : LabelTable} (h : t.wf) (n : Text) (a : Nat) : (t.insert n a).wf := by
  by_cases hh : t.has n = true
  · simpa [LabelTable.insert, hh] using h
  · have hh' : t.has n = false := by simpa using hh
    simp only [LabelTable.insert, hh]
    clear hh
    induction t with
    | nil => exact List.pairwise_singleton _ _
    | cons e rest ih =>
      obtain ⟨k, b⟩ := e
      have hk : ¬ k = n := by intro e; simp [LabelTable.has, LabelTable.get, e] at hh'
      have hr : LabelTable.has rest n = false := by simpa [LabelTable.has, LabelTable.get, hk] using hh'
      obtain ⟨h1, h2⟩ := List.pairwise_cons.mp h
      by_cases hb : nameBefore n k = true
      · simp only [LabelTable.insertNew, hb, if_true]
        refine List.pairwise_cons.mpr ⟨?_, h⟩
        intro e he
        rcases List.mem_cons.mp he with rfl | he
        · exact hb
        · exact nameBefore_trans hb (h1 e he)
      · simp only [LabelTable.insertNew, hb]
        refine List.pairwise_cons.mpr ⟨?_, ih h2 hr⟩
        intro e he
        have : e ∈ LabelTable.insert rest n a := by simpa [LabelTable.insert, hr] using he
        rcases LabelTable.mem_insert this with rfl | he
        · exact nameBefore_total (Ne.symm hk) (by simpa using hb)
        · exact h1 e he

/-! ### The output image -/

/-- The record written is the one found; every other address keeps its own (R45). -/
theorem findRecord_putRecord (rs : List Record) (a b : Nat) (w : Bits) :
    findRecord (putRecord rs a w) b = if b = a then some w else findRecord rs b := by
  induction rs with
  | nil => by_cases h : a = b <;> simp [putRecord, findRecord, h, eq_comm]
  | cons r rest ih =>
    by_cases h1 : r.addr = a
    · simp only [putRecord, if_pos h1, findRecord, eq_comm (a := a)]
      by_cases h2 : b = a
      · simp [h2]
      · simp [h2, h1, Ne.symm h2]
    · by_cases h3 : a < r.addr
      · simp only [putRecord, if_neg h1, if_pos h3, findRecord, eq_comm (a := a)]
      · simp only [putRecord, if_neg h1, if_neg h3, findRecord, ih]
        by_cases h4 : r.addr = b
        · simp [h4, show ¬ b = a from fun e => h1 (h4.trans e)]
        · simp [h4]

/-- Reading after a write (R45). -/
theorem Memory.read_write (m : Memory) (a b : Nat) (w : Bits) :
    (m.write a w).read b = if b = a then some w else m.read b := by
  simp only [Memory.read, Memory.write_records, findRecord_putRecord]
  by_cases h : b = a
  · simp [h]
  · rw [if_neg h, if_neg h]; rfl

theorem mem_putRecord {rs : List Record} {a : Nat} {w : Bits} {r : Record} (h : r ∈ putRecord rs a w) :
    r = ⟨a, w⟩ ∨ r ∈ rs := by
  induction rs with
  | nil => exact .inl (by simpa [putRecord] using h)
  | cons q rest ih =>
    simp only [putRecord] at h
    split at h
    · rcases List.mem_cons.mp h with h | h
      · exact .inl h
      · exact .inr (by simp [h])
    · split at h
      · simpa using h
      · rcases List.mem_cons.mp h with rfl | h
        · exact .inr (by simp)
        · rcases ih h with h | h
          · exact .inl h
          · exact .inr (by simp [h])

theorem putRecord_rising {rs : List Record} (h : rs.Pairwise (fun r q => r.addr < q.addr)) (a : Nat) (w : Bits) :
    (putRecord rs a w).Pairwise (fun r q => r.addr < q.addr) := by
  induction rs with
  | nil => exact List.pairwise_singleton _ _
  | cons r rest ih =>
    obtain ⟨h1, h2⟩ := List.pairwise_cons.mp h
    simp only [putRecord]
    split
    · next e => exact List.pairwise_cons.mpr ⟨fun q hq => by simpa [← e] using h1 q hq, h2⟩
    · split
      · next lt =>
        refine List.pairwise_cons.mpr ⟨fun q hq => ?_, h⟩
        rcases List.mem_cons.mp hq with rfl | hq
        · exact lt
        · exact lt.trans (h1 q hq)
      · next ne nlt =>
        refine List.pairwise_cons.mpr ⟨fun q hq => ?_, ih h2⟩
        rcases mem_putRecord hq with rfl | hq
        · simp only; omega
        · exact h1 q hq

/-- A write above every address written appends its record (R45). -/
theorem putRecord_append {rs : List Record} {a : Nat} (w : Bits) (h : ∀ r ∈ rs, r.addr < a) :
    putRecord rs a w = rs ++ [⟨a, w⟩] := by
  induction rs with
  | nil => rfl
  | cons r rest ih =>
    have := h r (by simp)
    simp [putRecord, show ¬ r.addr = a by omega, show ¬ a < r.addr by omega, ih fun q hq => h q (by simp [hq])]

/-- `MemWrite` inside the image keeps its canonical form. -/
theorem Memory.wf_write {m : Memory} (h : m.wf) {a : Nat} (ha : a < Config.depth) (w : Bits) : (m.write a w).wf := by
  refine ⟨putRecord_rising h.1 a w, fun r hr => ?_⟩
  rcases mem_putRecord hr with rfl | hr
  · exact ha
  · exact h.2 r hr

/-- The fill keeps the canonical form. -/
theorem Memory.wf_fill {m : Memory} (h : m.wf) : m.fill.wf := h

/-- The terminator keeps the canonical form. -/
theorem Memory.wf_terminate {m : Memory} (h : m.wf) : m.terminate.wf := h

/-- The image of the reset state has the canonical form, and so has its Label Table. -/
theorem reset_wf : State.reset.img.wf ∧ State.reset.lt.wf := by
  refine ⟨⟨List.Pairwise.nil, fun r hr => ?_⟩, List.Pairwise.nil⟩
  simp [State.reset] at hr

end Sys2Proof.Machine
end

