-- ==== Sys2Proof/Laws/Outcomes.lean ====
section
/-! SUPPORT. What each operation that answers an outcome can answer, said once: the inversion lemmas of `instrLine`, `labelLine`, `endOfPass`,
`exec` and `step`. -/

namespace Sys2Proof.Machine

/-- The sequencer has a move exactly in the two passes, at a line number from 1. -/
theorem stopped_eq_none {s : State} : s.stopped = none ↔ (s.pass = .labels ∨ s.pass = .emit) ∧ s.lineNo ≠ 0 := by
  cases h : s.pass <;> simp [State.stopped, h]

/-- An instruction line counts in pass 1 and settles its encoding in pass 2 (R156, R157). -/
theorem instrLine_next {s t : State} {r : Except ErrorInfo Bits} (h : instrLine s r = .next t) :
    (s.pass = .labels ∧ t = s.countLine) ∨ (s.pass = .emit ∧ s.outAddr < Config.depth ∧ t = s.settle r) := by
  cases hp : s.pass with
  | labels => simp only [instrLine, hp] at h; cases h; exact .inl ⟨rfl, rfl⟩
  | emit =>
    simp only [instrLine, hp] at h
    split at h
    · cases h; exact .inr ⟨rfl, ‹_›, rfl⟩
    · cases h
  | done => simp [instrLine, hp] at h
  | aborted => simp [instrLine, hp] at h

/-- Every instruction is an instruction line with some encoding. -/
theorem exec_shape (i : Instr) (s : State) : ∃ r, exec i s = instrLine s r := by
  cases i <;> exact ⟨_, rfl⟩

/-- What an instruction's next state is, in each pass. -/
theorem exec_next {i : Instr} {s t : State} (h : exec i s = .next t) :
    (s.pass = .labels ∧ t = s.countLine) ∨
      (s.pass = .emit ∧ s.outAddr < Config.depth ∧ ((∃ w, t = s.emit w) ∨ ∃ e, t = s.abort e)) := by
  obtain ⟨r, hr⟩ := exec_shape i s
  rw [hr] at h
  rcases instrLine_next h with h | ⟨h1, h2, rfl⟩
  · exact .inl h
  · refine .inr ⟨h1, h2, ?_⟩
    cases r with
    | ok w => exact .inl ⟨w, rfl⟩
    | error e => exact .inr ⟨e, rfl⟩

/-- What a label declaration does: one of two errors or an entry in pass 1, nothing in pass 2 (R154, R155). -/
theorem labelLine_next {n : Text} {s t : State} (h : labelLine n s = .next t) :
    (s.pass = .labels ∧
      ((n.length < Config.minLabelLen ∧ t = s.abort (.shortLabelError n)) ∨
       (Config.minLabelLen ≤ n.length ∧ s.lt.has n = true ∧ t = s.abort (.duplicateLabelError n)) ∨
       (Config.minLabelLen ≤ n.length ∧ s.lt.has n = false ∧ t = s.declare n))) ∨
    (s.pass = .emit ∧ t = s.skipLine) := by
  cases hp : s.pass <;> simp only [labelLine, hp] at h
  · refine .inl ⟨rfl, ?_⟩
    split at h
    · next hl => cases h; exact .inl ⟨hl, rfl⟩
    · next hl =>
      split at h
      · next hh => cases h; exact .inr (.inl ⟨by omega, hh, rfl⟩)
      · next hh => cases h; exact .inr (.inr ⟨by omega, by simpa using hh, rfl⟩)
  · cases h; exact .inr ⟨rfl, rfl⟩
  · cases h
  · cases h

/-- What the end of the source does (R158, R159). -/
theorem endOfPass_next {s t : State} (h : endOfPass s = .next t) :
    (s.pass = .labels ∧ t = s.beginEmit) ∨ (s.pass = .emit ∧ s.outAddr < Config.depth ∧ t = s.finish) := by
  cases hp : s.pass <;> simp only [endOfPass, hp] at h
  · cases h; exact .inl ⟨rfl, rfl⟩
  · split at h
    · cases h; exact .inr ⟨rfl, ‹_›, rfl⟩
    · cases h
  · cases h
  · cases h

/-- What a step is where the sequencer has a move and the source has a run. -/
theorem step_eq {s : State} (hs : s.stopped = none) (hr : sourceRefusal s.src = none) :
    step s = match s.currentLine with
      | none => endOfPass s
      | some raw =>
        match readLine raw with
        | .blank => .next s.skipLine
        | .label n => labelLine n s
        | .instr i => exec i s := by
  rw [step, hs, hr] <;> rfl

/-- What a step can do: a line is read and handled, or the source has ended; in either case the source has a run. -/
theorem step_next {s t : State} (h : step s = .next t) :
    s.stopped = none ∧ sourceRefusal s.src = none ∧
      ((∃ raw, s.currentLine = some raw ∧
          ((readLine raw = .blank ∧ t = s.skipLine) ∨
           (∃ n, readLine raw = .label n ∧ labelLine n s = .next t) ∨
           (∃ i, readLine raw = .instr i ∧ exec i s = .next t))) ∨
       (s.currentLine = none ∧ endOfPass s = .next t)) := by
  have hs : s.stopped = none := by
    unfold step at h
    split at h
    · cases h
    · assumption
  have hr : sourceRefusal s.src = none := by
    rw [step, hs] at h
    simp only at h
    split at h
    · cases h
    · assumption
  refine ⟨hs, hr, ?_⟩
  rw [step_eq hs hr] at h
  split at h
  · next hc => exact .inr ⟨hc, h⟩
  · next raw hc =>
    refine .inl ⟨raw, hc, ?_⟩
    split at h
    · next hl => cases h; exact .inl ⟨hl, rfl⟩
    · next n hl => exact .inr (.inl ⟨n, hl, h⟩)
    · next i hl => exact .inr (.inr ⟨i, hl, h⟩)

/-- The line a state reads is one of its source, at `line_no` counted from 1 (R40). -/
theorem currentLine_eq_some {s : State} {raw : Text} :
    s.currentLine = some raw ↔ s.lineNo ≠ 0 ∧ s.src[s.lineNo - 1]? = some raw := by
  unfold State.currentLine
  split <;> simp_all

theorem currentLine_eq_none {s : State} : s.currentLine = none ↔ s.lineNo = 0 ∨ s.src.length ≤ s.lineNo - 1 := by
  unfold State.currentLine
  split <;> simp_all

end Sys2Proof.Machine
end

