-- ==== Sys2Proof/Laws/Text.lean ====
section
/-! SUPPORT. Cleaning and splitting lines made of tokens, and the tokens of well-formed instructions (R152, R153, R212 f). -/

namespace Sys2Proof

theorem not_isSpace_of_isTokenChar {c : Char} (h : isTokenChar c = true) : isSpace c = false := by
  simp_all [isTokenChar]

/-! ### Split -/

theorem split_space {c : Char} (h : isSpace c = true) (cs : Text) : split (c :: cs) = split cs := by
  rw [split.eq_def]; simp [h]

/-- A token is the first run of a line that goes on with white space, or ends (R153). -/
theorem split_token {t rest : Text} (ht : t ≠ []) (hs : t.all (fun c => !isSpace c) = true)
    (hr : ∀ c ∈ rest.head?, isSpace c = true) : split (t ++ rest) = t :: split rest := by
  induction t with
  | nil => exact absurd rfl ht
  | cons c cs ih =>
    simp only [List.all_cons, Bool.and_eq_true, Bool.not_eq_true'] at hs
    cases cs with
    | nil =>
      cases rest with
      | nil => simp [split, hs.1]
      | cons d ds =>
        have hd : isSpace d = true := hr d (by simp)
        rw [List.singleton_append, split.eq_def]
        simp [hs.1, hd]
    | cons d ds =>
      have hd : isSpace d = false := by simpa using List.all_eq_true.mp hs.2 d (by simp)
      have := ih (by simp) hs.2
      rw [List.cons_append] at this
      rw [List.cons_append, List.cons_append, split.eq_def]
      simp [hs.1, hd, this]

theorem spaced_head (ts : List Text) : ∀ c ∈ (spaced ts).head?, isSpace c = true := by
  cases ts with
  | nil => simp [spaced]
  | cons t ts => simp only [spaced, List.head?_cons]; intro c hc; cases hc; decide

/-- Tokens written with a space before each split back into themselves. -/
theorem split_spaced {ts : List Text} (h : ∀ t ∈ ts, t ≠ [] ∧ t.all isTokenChar = true) : split (spaced ts) = ts := by
  induction ts with
  | nil => rfl
  | cons t ts ih =>
    obtain ⟨h1, h2⟩ := h t (by simp)
    rw [spaced, split_space (by decide), split_token h1 ?_ (spaced_head ts), ih fun u hu => h u (by simp [hu])]
    rw [List.all_eq_true] at h2 ⊢
    intro c hc
    simp [not_isSpace_of_isTokenChar (h2 c hc)]

/-! ### Clean -/

/-- A text without a semicolon has no comment (R152). -/
theorem cutComment_id {t : Text} (h : ∀ c ∈ t, c ≠ ';') : cutComment t = t := by
  induction t with
  | nil => rfl
  | cons c cs ih =>
    rw [cutComment, ih fun d hd => h d (by simp [hd])]
    simp [h c (by simp)]

theorem trimLeft_id {t : Text} (h : ∀ c ∈ t.head?, isSpace c = false) : trimLeft t = t := by
  cases t with
  | nil => rfl
  | cons c cs => rw [trimLeft, h c (by simp)]; simp

theorem trimRight_id {t : Text} (h : ∀ c ∈ t.getLast?, isSpace c = false) : trimRight t = t := by
  rw [trimRight, trimLeft_id (by simpa using h), List.reverse_reverse]

/-- A line with no semicolon and no white space at its ends is clean (R152). -/
theorem clean_id {t : Text} (h : ∀ c ∈ t, c ≠ ';') (h1 : ∀ c ∈ t.head?, isSpace c = false)
    (h2 : ∀ c ∈ t.getLast?, isSpace c = false) : clean t = t := by
  rw [clean, cutComment_id h, trimLeft_id h1, trimRight_id h2]

/-! ### The tokens of a well-formed instruction -/

theorem regLetter_isTokenChar (r : Reg) : isTokenChar (regLetter r) = true := by
  revert r; decide

theorem isTokenChar_of_isDecimalDigit {c : Char} (h : isDecimalDigit c = true) : isTokenChar c = true := by
  simp only [isDecimalDigit, Bool.and_eq_true, decide_eq_true_eq] at h
  have key : ∀ d : Char, d.toNat < 48 ∨ d.toNat = 59 → c ≠ d := fun d hd e => by subst e; omega
  simp [isTokenChar, isSpace, key ' ' (by decide), key '\t' (by decide), key '\r' (by decide), key ';' (by decide)]
  omega

/-- An operand's spelling is a token (R212 f). -/
theorem token_of_wellFormed {o : Operand} (h : o.wellFormed = true) : o.token ≠ [] ∧ o.token.all isTokenChar = true := by
  cases o with
  | hex d =>
    have hd : d.all isTokenChar = true := h
    exact ⟨List.cons_ne_nil _ _, by
      simp only [Operand.token, List.all_cons, hd, (by decide : isTokenChar '0' = true), (by decide : isTokenChar 'x' = true)]; rfl⟩
  | bin d =>
    have hd : d.all isTokenChar = true := h
    exact ⟨List.cons_ne_nil _ _, by
      simp only [Operand.token, List.all_cons, hd, (by decide : isTokenChar '0' = true), (by decide : isTokenChar 'b' = true)]; rfl⟩
  | dec d =>
    simp only [Operand.wellFormed, allDecimal, Bool.and_eq_true, Bool.not_eq_true', List.isEmpty_eq_false_iff] at h
    refine ⟨h.1, List.all_eq_true.mpr fun c hc => isTokenChar_of_isDecimalDigit (List.all_eq_true.mp h.2 c hc)⟩
  | reg r => exact ⟨by simp [Operand.token], by simp [Operand.token, regLetter_isTokenChar]⟩
  | label n =>
    simp only [Operand.wellFormed, Bool.and_eq_true, Bool.not_eq_true', List.isEmpty_eq_false_iff] at h
    exact ⟨h.1.1, h.1.2⟩

/-- A mnemonic's name is a token (R212 f). -/
theorem name_of_wellFormed {m : Mnemonic} (h : m.wellFormed = true) : m.name ≠ [] ∧ m.name.all isTokenChar = true := by
  cases m with
  | extra n =>
    simp only [Mnemonic.wellFormed, Bool.and_eq_true, Bool.not_eq_true', List.isEmpty_eq_false_iff] at h
    exact ⟨h.1.1.1, h.1.1.2⟩
  | _ => decide

theorem tokens_of_wellFormed {i : Instr} (h : i.wellFormed = true) : ∀ t ∈ i.tokens, t ≠ [] ∧ t.all isTokenChar = true := by
  simp only [Instr.wellFormed, Bool.and_eq_true] at h
  intro t ht
  rcases List.mem_cons.mp ht with rfl | ht
  · exact name_of_wellFormed h.1.1
  · obtain ⟨o, ho, rfl⟩ := List.mem_map.mp ht
    exact token_of_wellFormed (List.all_eq_true.mp h.1.2 o ho)

theorem spaced_ne_semicolon {ts : List Text} (h : ∀ t ∈ ts, t.all isTokenChar = true) : ∀ c ∈ spaced ts, c ≠ ';' := by
  induction ts with
  | nil => simp [spaced]
  | cons t ts ih =>
    intro c hc
    rcases List.mem_cons.mp hc with rfl | hc
    · decide
    · rcases List.mem_append.mp hc with hc | hc
      · have := List.all_eq_true.mp (h t (by simp)) c hc
        rintro rfl
        simp [isTokenChar] at this
      · exact ih (fun u hu => h u (by simp [hu])) c hc

/-- The last character of a line of tokens is that of its last token. -/
theorem getLast?_spaced {t : Text} {ts : List Text} (h : ∀ u ∈ t :: ts, u ≠ []) :
    (t ++ spaced ts).getLast? = ((t :: ts).getLast?).bind List.getLast? := by
  induction ts generalizing t with
  | nil => simp [spaced]
  | cons u us ih =>
    have h1 : u ++ spaced us ≠ [] := by simp [h u (by simp)]
    rw [spaced, List.getLast?_append_of_ne_nil _ (by simp), List.getLast?_cons_of_ne_nil h1, ih fun v hv => h v (by simp_all),
      List.getLast?_cons_cons]

/-- The line written for a well-formed instruction is clean, and splits into its tokens (R152, R153). -/
theorem clean_encode {i : Instr} (h : i.wellFormed = true) : clean (encode i) = encode i ∧ split (encode i) = i.tokens := by
  have ht := tokens_of_wellFormed h
  have hname := ht _ (by simp [Instr.tokens] : i.mnemonic.name ∈ i.tokens)
  have hops : ∀ t ∈ i.operands.map Operand.token, t ≠ [] ∧ t.all isTokenChar = true :=
    fun t h => ht t (List.mem_cons_of_mem _ h)
  have hsp : ∀ t : Text, t.all isTokenChar = true → ∀ c ∈ t, isSpace c = false :=
    fun t h c hc => not_isSpace_of_isTokenChar (List.all_eq_true.mp h c hc)
  constructor
  · apply clean_id
    · intro c hc
      rcases List.mem_append.mp hc with hc | hc
      · have := List.all_eq_true.mp hname.2 c hc
        rintro rfl
        simp [isTokenChar] at this
      · exact spaced_ne_semicolon (fun t h => (hops t h).2) c hc
    · intro c hc
      cases hn : i.mnemonic.name with
      | nil => exact absurd hn hname.1
      | cons d ds =>
        simp only [encode, hn, List.cons_append, List.head?_cons, Option.mem_def, Option.some.injEq] at hc
        exact hsp _ hname.2 c (by simp [hn, hc])
    · intro c hc
      rw [encode, getLast?_spaced (fun u hu => (ht u hu).1)] at hc
      obtain ⟨t, h1, h2⟩ := Option.bind_eq_some_iff.mp hc
      exact hsp t (ht t (List.mem_of_getLast? h1)).2 c (List.mem_of_getLast? h2)
  · rw [encode, split_token hname.1 _ (spaced_head _), split_spaced hops]
    · rfl
    · rw [List.all_eq_true]
      intro c hc
      simp [hsp _ hname.2 c hc]

end Sys2Proof
end

