-- ==== Sys2Proof/Laws/PerInstr.lean ====
section
/-! SUPPORT. Statements made per instruction: the line written for an instruction splits into that instruction's tokens. -/

namespace Sys2Proof.Laws.SplitsIntoTokens

/-- The line written for a well-formed instruction, cleaned and split, is its tokens (R152, R153). -/
def Statement (i : Instr) : Prop := i.wellFormed = true → split (clean (encode i)) = i.tokens

theorem of_wellFormed (i : Instr) : Statement i := fun h => by
  rw [(clean_encode h).1, (clean_encode h).2]

theorem halt (ops : List Operand) : Statement (.halt ops) := of_wellFormed _
theorem ldi (ops : List Operand) : Statement (.ldi ops) := of_wellFormed _
theorem add (ops : List Operand) : Statement (.add ops) := of_wellFormed _
theorem adi (ops : List Operand) : Statement (.adi ops) := of_wellFormed _
theorem cmpj (ops : List Operand) : Statement (.cmpj ops) := of_wellFormed _
theorem dec (ops : List Operand) : Statement (.dec ops) := of_wellFormed _
theorem inc (ops : List Operand) : Statement (.inc ops) := of_wellFormed _
theorem jmp (ops : List Operand) : Statement (.jmp ops) := of_wellFormed _
theorem nop (ops : List Operand) : Statement (.nop ops) := of_wellFormed _
theorem extra (mn : Text) (ops : List Operand) : Statement (.extra mn ops) := of_wellFormed _

end Sys2Proof.Laws.SplitsIntoTokens
end

