-- ==== Sys2Proof/Laws/Render.lean ====
section
/-! SUPPORT. The value and the length of bit strings; the one equation of `bin`; the fields of a list of operands. -/

namespace Sys2Proof

@[simp] theorem zeros_length (n : Nat) : (zeros n).length = n := List.length_replicate

@[simp] theorem bitsOf_length {n : Nat} (c : BitVec n) : (bitsOf c).length = n := by simp [bitsOf]

@[simp] theorem valBits_nil : valBits [] = 0 := rfl

theorem valBits_foldl (s : Bits) (a : Nat) :
    s.foldl (fun v b => 2 * v + b.toNat) a = a * 2 ^ s.length + valBits s := by
  induction s generalizing a with
  | nil => simp [valBits]
  | cons b bs ih =>
    simp only [valBits, List.foldl_cons, List.length_cons, Nat.pow_succ]
    rw [ih, ih (2 * 0 + b.toNat)]
    ring

theorem valBits_append (s t : Bits) : valBits (s ++ t) = valBits s * 2 ^ t.length + valBits t := by
  rw [valBits, List.foldl_append, valBits_foldl]; rfl

theorem valBits_cons (b : Bool) (s : Bits) : valBits (b :: s) = b.toNat * 2 ^ s.length + valBits s := by
  simpa [valBits] using valBits_append [b] s

@[simp] theorem valBits_zeros (n : Nat) : valBits (zeros n) = 0 := by
  induction n with
  | zero => rfl
  | succ n ih => rw [zeros, List.replicate_succ, valBits_cons, ← zeros, ih]; simp

theorem valBits_lt (s : Bits) : valBits s < 2 ^ s.length := by
  induction s with
  | nil => simp
  | cons b s ih =>
    rw [valBits_cons, List.length_cons, Nat.pow_succ]
    cases b <;> simp <;> omega

namespace Machine

theorem binDigits_enough {f g v : Nat} (hf : v < f) (hg : v < g) : binDigits f v = binDigits g v := by
  induction f generalizing g v with
  | zero => omega
  | succ f ih =>
    cases g with
    | zero => omega
    | succ g =>
      simp only [binDigits]
      split
      · rfl
      · rw [ih (g := g) (by omega) (by omega)]

/-- The digits of 0 and 1, and the last digit of anything more (R9). -/
theorem bin_eq (v : Nat) : bin v = if v < 2 then [v == 1] else bin (v / 2) ++ [v % 2 == 1] := by
  rw [bin, binDigits]
  split
  · rfl
  · rw [bin, binDigits_enough (f := v) (g := v / 2 + 1) (by omega) (by omega)]

theorem bin_ne_nil (v : Nat) : bin v ≠ [] := by
  rw [bin_eq]; split <;> simp

/-! ### Going on after an operand -/

@[simp] theorem andThen_ok {α β : Type} (a : α) (k : α → Except ErrorInfo β) : andThen (.ok a) k = k a := rfl
@[simp] theorem andThen_error {α β : Type} (e : ErrorInfo) (k : α → Except ErrorInfo β) :
    andThen (.error e : Except ErrorInfo α) k = .error e := rfl

theorem andThen_eq_ok {α β : Type} {x : Except ErrorInfo α} {k : α → Except ErrorInfo β} {b : β} :
    andThen x k = .ok b ↔ ∃ a, x = .ok a ∧ k a = .ok b := by
  cases x <;> simp

theorem andThen_eq_error {α β : Type} {x : Except ErrorInfo α} {k : α → Except ErrorInfo β} {e : ErrorInfo} :
    andThen x k = .error e ↔ x = .error e ∨ ∃ a, x = .ok a ∧ k a = .error e := by
  cases x <;> simp

@[simp] theorem encodeOperands_nil (mn : Mnemonic) (w pc : Nat) (lt : LabelTable) : encodeOperands mn w pc lt [] = .ok [] := rfl

theorem encodeOperands_cons (mn : Mnemonic) (w pc : Nat) (lt : LabelTable) (o : Operand) (rest : List Operand) :
    encodeOperands mn w pc lt (o :: rest) =
      andThen (encodeOperand mn w pc lt o) fun f =>
        andThen (encodeOperands mn w pc lt rest) fun fs => .ok (f :: fs) := rfl

/-- A list of operands that encodes has one field for each. -/
theorem encodeOperands_length {mn : Mnemonic} {w pc : Nat} {lt : LabelTable} {ops : List Operand} {fs : List Bits}
    (h : encodeOperands mn w pc lt ops = .ok fs) : fs.length = ops.length := by
  induction ops generalizing fs with
  | nil => simp_all [encodeOperands]
  | cons o rest ih =>
    obtain ⟨f, _, h⟩ := andThen_eq_ok.mp h
    obtain ⟨gs, hg, h⟩ := andThen_eq_ok.mp h
    cases h
    simp [ih hg]

end Machine

end Sys2Proof
end

