-- ==== Sys2Proof/Laws/Sources.lean ====
section
/-! SUPPORT. Which sources have a run, the test of `step` held against the plain statement of it (R52, R153), and how instruction lines and
declarations of a source cut in two add up. -/

namespace Sys2Proof.Machine

theorem instrs_append (a b : List Text) : instrs (a ++ b) = instrs a ++ instrs b := by
  induction a with
  | nil => rfl
  | cons r rest ih => simp only [List.cons_append, instrs]; cases readLine r <;> simp [ih]

theorem declared_append (a b : List Text) (k : Nat) : declared (a ++ b) k = declared a k ++ declared b (k + instrCount a) := by
  induction a generalizing k with
  | nil => simp [declared, instrCount, instrs]
  | cons r rest ih =>
    simp only [List.cons_append, declared, instrCount, instrs]
    cases readLine r <;> simp [ih, instrCount, Nat.add_assoc, Nat.add_comm 1]

/-- The names a source declares are those of its declaration lines. -/
theorem declared_names_iff (src : List Text) (k : Nat) (p : Text → Prop) :
    (∀ e ∈ declared src k, p e.1) ↔ ∀ raw ∈ src, ∀ n, readLine raw = .label n → p n := by
  induction src generalizing k with
  | nil => simp [declared]
  | cons raw rest ih => cases h : readLine raw <;> rw [declared, h] <;> simp only [List.forall_mem_cons, ih] <;> simp [h]

/-- The test `step` makes is the plain statement (R52, R153). -/
theorem sourceRefusal_eq_none {src : List Text} : sourceRefusal src = none ↔ admitted src := by
  have key : src.any declaresSpacedName = false ↔ ∀ e ∈ declared src 0, e.1.any isSpace = false := by
    rw [declared_names_iff src 0 (fun n => n.any isSpace = false), List.any_eq_false]
    refine forall₂_congr fun raw _ => ?_
    cases h : readLine raw <;> simp [declaresSpacedName, h]
  rw [admitted, ← key, sourceRefusal]
  by_cases h : Config.depth ≤ instrCount src
  · rw [if_pos h]
    exact ⟨(fun e => nomatch e), fun e => absurd e.1 (by omega)⟩
  · rw [if_neg h]
    cases src.any declaresSpacedName
    · exact ⟨fun _ => ⟨by omega, rfl⟩, fun _ => rfl⟩
    · exact ⟨(fun e => nomatch e), fun e => nomatch e.2⟩

/-- What a step does at a line of a source that has a run (R151). -/
theorem step_at {s : State} {raw : Text} (hp : s.pass = .labels ∨ s.pass = .emit) (ha : admitted s.src)
    (hc : s.currentLine = some raw) : step s = match readLine raw with
      | .blank => .next s.skipLine
      | .label n => labelLine n s
      | .instr i => exec i s := by
  rw [step_eq (stopped_eq_none.mpr ⟨hp, (currentLine_eq_some.mp hc).1⟩) (sourceRefusal_eq_none.mpr ha), hc] <;> rfl

end Sys2Proof.Machine
end

