-- ==== Sys2Proof/Tests/Slice0.lean ====
section
/-! SUPPORT. Tests with expected results from spec/95_test_vectors.md (their ids S<n>, O<n>, I<n>, Q<n>, P<n> stand in the names) and by hand from the
rules; and, for each statement with hypotheses, a witness that meets them. -/

namespace Sys2Proof.Tests

open Sys2Proof Sys2Proof.Machine

/-! ### Data -/

/-- The fixture table `T_FIX` of spec/95_test_vectors.md: for tests only, not the hardware's table. -/
def tFix : Tables where
  pAdd := 0b1000#4
  pAdi := 0b1001#4
  pCmpj := 0b1010#4
  pDec := 0b1011#4
  pInc := 0b1100#4
  pJmp := 0b1101#4
  aAdi := 3
  aCmpj := 3
  extra := []

/-- The fixture with one further mnemonic, `MOV`, of two operands. -/
def tMov : Tables := { tFix with extra := [⟨['M', 'O', 'V'], 0b0110#4, 2⟩] }

/-- A state of pass 2 about to read its one line, which stands in slot `a`. -/
def emitAt (a : Nat) (raw : Text) : State := { State.load [raw] with pass := .emit, pc := a, outAddr := a }

/-- A state of pass 1 about to read its one line, which stands in slot `a`. -/
def labelsAt (a : Nat) (raw : Text) : State := { State.load [raw] with pc := a }

/-- The state after a step, where there is one. -/
def after : Host.Outcome State Fault Refusal → Option State
  | .next s => some s
  | .fault _ | .refused _ => none

def done : Text := ['D', 'O', 'N', 'E']
def loop : Text := ['L', 'O', 'O', 'P']
def nopLine : Text := ['N', 'O', 'P']
def nopWord : Bits := bitsOf 0b1111000000000000#16

/-- A source of one `NOP` has a run. -/
theorem nopLine_admitted : admitted [nopLine] := ⟨by decide, by decide⟩

/-! ### WellFormed refuses -/

theorem test_wf_hex_with_space : (Operand.hex ['1', ' ']).wellFormed = false := by decide
theorem test_wf_bin_with_semicolon : (Operand.bin ['1', ';']).wellFormed = false := by decide
theorem test_wf_dec_with_letter : (Operand.dec ['1', 'a']).wellFormed = false := by decide
theorem test_wf_dec_empty : (Operand.dec []).wellFormed = false := by decide
theorem test_wf_label_empty : (Operand.label []).wellFormed = false := by decide
theorem test_wf_label_with_space : (Operand.label ['A', ' ', 'B']).wellFormed = false := by decide
theorem test_wf_label_spelled_as_register : (Operand.label ['p']).wellFormed = false := by decide
theorem test_wf_label_spelled_as_hex : (Operand.label ['0', 'x', '5']).wellFormed = false := by decide
theorem test_wf_label_spelled_as_decimal : (Operand.label ['1', '0']).wellFormed = false := by decide
theorem test_wf_mnemonic_empty : (Instr.extra [] []).wellFormed = false := by decide
theorem test_wf_mnemonic_with_space : (Instr.extra ['M', ' '] []).wellFormed = false := by decide
theorem test_wf_mnemonic_lower_case : (Instr.extra ['m', 'o', 'v'] []).wellFormed = false := by decide
theorem test_wf_mnemonic_of_the_nine : (Instr.extra ['A', 'D', 'D'] []).wellFormed = false := by decide
theorem test_wf_line_ending_in_colon : (Instr.jmp [.label ['L', ':']]).wellFormed = false := by decide
theorem test_wf_bare_declaration : (Instr.extra ['L', ':'] []).wellFormed = false := by decide

/-! ### Lines and words decode: one of each format, words written out from R67 with the codes of `T_FIX` -/

theorem test_decode_halt_I2 : decode ['h', 'a', 'l', 't'] = .ok (.halt []) := by rfl
theorem test_decode_ldi_Q10 : decode ['L', 'D', 'I', ' ', 'A', ' ', '5', ';', 'B'] = .ok (.ldi [.reg 0, .dec ['5']]) := by rfl
theorem test_decode_comma_I19 : decode ['L', 'D', 'I', ' ', 'A', ',', ' ', '5'] = .ok (.ldi [.label ['A', ','], .dec ['5']]) := by rfl
theorem test_decode_blank_Q2 : decode [' ', ';', ' ', 'N', 'O', 'P'] = .error .blankLine := by rfl
theorem test_word_halt : (tableLine tFix 0b0000000000000000#16).map decode = some (.ok (.halt [])) := by rfl
theorem test_word_nop : (tableLine tFix 0b1111000000000000#16).map decode = some (.ok (.nop [])) := by rfl
theorem test_word_ldi : (tableLine tFix 0b0001111111111111#16).map decode = some (.ok (.ldi [.reg 15, .hex ['f', 'f']])) := by rfl
theorem test_word_add : (tableLine tFix 0b1000001000000001#16).map decode = some (.ok (.add [.reg 2, .reg 0, .reg 1])) := by rfl
theorem test_word_adi : (tableLine tFix 0b1001001000100011#16).map decode = some (.ok (.adi [.reg 2, .reg 2, .hex ['3']])) := by rfl
theorem test_word_cmpj : (tableLine tFix 0b1010000000010010#16).map decode = some (.ok (.cmpj [.reg 0, .reg 1, .hex ['2']])) := by rfl
theorem test_word_dec : (tableLine tFix 0b1011001000000011#16).map decode = some (.ok (.dec [.reg 2, .reg 3])) := by rfl
theorem test_word_inc : (tableLine tFix 0b1100001000000011#16).map decode = some (.ok (.inc [.reg 2, .reg 3])) := by rfl
theorem test_word_jmp : (tableLine tFix 0b1101000000110000#16).map decode = some (.ok (.jmp [.hex ['0', '3']])) := by rfl
theorem test_encode_line : encode (.cmpj [.reg 15, .bin ['1', '1'], .label done]) =
    ['C', 'M', 'P', 'J', ' ', 'P', ' ', '0', 'b', '1', '1', ' ', 'D', 'O', 'N', 'E'] := by rfl

/-! ### The Operand Encoder -/

theorem test_render_O2_O3 : render 15 4 = bitsOf 0b1111#4 ∧ render 16 4 = bitsOf 0b10000#5 := by decide
theorem test_render_O1_O7 : render 0 4 = bitsOf 0b0000#4 ∧ render 300 8 = bitsOf 0b100101100#9 := by decide
theorem test_hex_case_O9 : encodeOperand .ldi 8 0 [] (.hex ['f', 'F']) = .ok (bitsOf 0b11111111#8) := by rfl
theorem test_hex_empty_O11 : encodeOperand .ldi 8 0 [] (Operand.ofToken ['0', 'x']) = .error (.encodingError ['0', 'x']) := by rfl
theorem test_hex_upper_case_O13 : encodeOperand .ldi 8 0 [] (Operand.ofToken ['0', 'X', '0', '5']) = .error (.labelError ['0', 'X', '0', '5']) := by rfl
theorem test_bin_digit_O16 : encodeOperand .ldi 8 0 [] (Operand.ofToken ['0', 'b', '1', '0', '2']) = .error (.encodingError ['0', 'b', '1', '0', '2']) := by rfl
theorem test_register_O23 : encodeOperand .adi 4 0 [] (Operand.ofToken ['p']) = .ok (bitsOf 0b1111#4) := by rfl
theorem test_register_past_P_O25 : encodeOperand .add 8 0 [] (Operand.ofToken ['Q']) = .error (.labelError ['Q']) := by rfl
theorem test_direct_O28_O29 : encodeOperand .jmp 8 200 [(loop, 3)] (.label loop) = .ok (bitsOf 0b00000011#8) ∧
    encodeOperand .jmp 8 0 [(loop, 256)] (.label loop) = .ok (bitsOf 0b100000000#9) := ⟨rfl, rfl⟩
theorem test_relative_O32_O34 : encodeOperand .cmpj 4 4 [(done, 4)] (.label done) = .ok (bitsOf 0b0000#4) ∧
    encodeOperand .cmpj 4 5 [(done, 4)] (.label done) = .error (.negativeJumpError done) := ⟨rfl, rfl⟩
theorem test_relative_O35_O36 : encodeOperand .cmpj 4 0 [(done, 15)] (.label done) = .ok (bitsOf 0b1111#4) ∧
    encodeOperand .cmpj 4 0 [(done, 16)] (.label done) = .ok (bitsOf 0b10000#5) := ⟨rfl, rfl⟩

/-! ### The instructions -/

theorem test_halt_I1 : after (exec (.halt []) (emitAt 255 [])) = some ((emitAt 255 []).emit (bitsOf 0#16)) := by rfl
theorem test_halt_I3 : encodeInstr tFix .halt [.reg 0] 0 [] = .error (.arityError ['H', 'A', 'L', 'T'] 1 0) := by rfl
theorem test_ldi_I6 : after (exec (.ldi [.reg 0, .hex ['0', '5']]) (emitAt 0 [])) = some ((emitAt 0 []).emit (bitsOf 0b0001000000000101#16)) := by rfl
theorem test_ldi_I12 : wordLdi [.reg 0, .dec ['2', '5', '6']] 0 [] = .ok (bitsOf 0b00010000100000000#17) := by rfl
theorem test_add_I23 : after (exec (.add [.reg 2, .reg 0, .reg 1]) (emitAt 0 [])) =
    some ((emitAt 0 []).emit (bitsOf Config.pAdd ++ bitsOf 0b001000000001#12)) := by rfl
theorem test_add_I28 : wordAdd tFix [.reg 0, .reg 1, .dec ['5']] 0 [] = .ok (bitsOf 0b10000000000100000101#20) := by rfl
theorem test_adi_I29 : wordAdi tFix [.reg 2, .reg 2, .bin ['1', '1']] 0 [] = .ok (bitsOf 0b1001001000100011#16) := by rfl
theorem test_adi_I31 : wordAdi tFix [.reg 0, .reg 1, .dec ['1', '6']] 0 [] = .ok (bitsOf 0b10010000000110000#17) := by rfl
theorem test_cmpj_I33 : wordCmpj tFix [.reg 0, .reg 1, .label done] 2 [(done, 4)] = .ok (bitsOf 0b1010000000010010#16) := by rfl
theorem test_cmpj_I42 : wordCmpj tFix [.reg 0, .label ['B', 'A', 'C', 'K'], .label loop] 5 [(['B', 'A', 'C', 'K'], 1)] =
    .error (.negativeJumpError ['B', 'A', 'C', 'K']) := by rfl
theorem test_dec_I43 : after (exec (.dec [.reg 2, .reg 3]) (emitAt 0 [])) =
    some ((emitAt 0 []).emit (bitsOf Config.pDec ++ bitsOf 0b001000000011#12)) := by rfl
theorem test_dec_I44 : wordDec tFix [.reg 15, .reg 15] 0 [] = .ok (bitsOf 0b1011111100001111#16) := by rfl
theorem test_inc_I45 : after (exec (.inc [.reg 2, .reg 3]) (emitAt 0 [])) =
    some ((emitAt 0 []).emit (bitsOf Config.pInc ++ bitsOf 0b001000000011#12)) := by rfl
theorem test_inc_I49 : wordInc tFix [.dec ['5'], .reg 0] 0 [] = .ok (bitsOf 0b11000000010100000000#20) := by rfl
theorem test_jmp_I52 : wordJmp tFix [.label loop] 200 [(loop, 3)] = .ok (bitsOf 0b1101000000110000#16) := by rfl
theorem test_jmp_I58 : wordJmp tFix [.label loop] 0 [(loop, 256)] = .ok (bitsOf 0b1101100000000000#16) := by rfl
theorem test_nop_I4 : after (exec (.nop []) (emitAt 0 [])) = some ((emitAt 0 []).emit nopWord) := by rfl
theorem test_nop_I5 : encodeInstr tFix .nop [.dec ['1']] 0 [] = .error (.arityError ['N', 'O', 'P'] 1 0) := by rfl
theorem test_extra_I64 : wordExtra tFix ['L', 'O', 'O', 'P', ':'] [.label nopLine] 0 [] = .error (.unknownOpcodeError ['L', 'O', 'O', 'P', ':']) := by rfl
theorem test_extra_row : wordExtra tMov ['M', 'O', 'V'] [.reg 1, .label done] 2 [(done, 4)] = .ok (bitsOf 0b0110000100000010#16) := by rfl

/-! ### The sequencer -/

theorem test_label_Q4 : after (step (labelsAt 5 (loop ++ [':']))) = some { labelsAt 5 (loop ++ [':']) with lt := [(loop, 5)], lineNo := 2 } := by rfl
theorem test_label_Q7 : after (step (labelsAt 0 ['X', ':'])) = some ((labelsAt 0 ['X', ':']).abort (.shortLabelError ['X'])) := by rfl
theorem test_count_Q9 : after (step (labelsAt 0 ['B', 'O', 'G', 'U', 'S', ' ', 'A'])) =
    some { labelsAt 0 ['B', 'O', 'G', 'U', 'S', ' ', 'A'] with pc := 1, lineNo := 2 } := by rfl
theorem test_skip_Q5 : after (step (emitAt 5 (loop ++ [':']))) = some { emitAt 5 (loop ++ [':']) with lineNo := 2 } := by rfl
theorem test_case_Q11 : (LabelTable.insert [(['A', 'B'], 0)] ['a', 'b'] 1) = [(['A', 'B'], 0), (['a', 'b'], 1)] := by decide
theorem test_empty_program_P9 : (runSource tFix []) = .done [] ⟨[], true, true⟩ := by rfl
theorem test_duplicate_P6 : (runSource tFix [['F', 'O', 'O', ':'], nopLine, ['F', 'O', 'O', ':']]) =
    .aborted ⟨.duplicateLabelError ['F', 'O', 'O'], 3, ['F', 'O', 'O', ':']⟩ [] := by rfl

/-! ### Witnesses: for each statement with hypotheses, an input that meets them -/

theorem witness_StepRunsDecodedLine : ((emitAt 0 nopLine).pass = .labels ∨ (emitAt 0 nopLine).pass = .emit) ∧ (emitAt 0 nopLine).lineNo ≠ 0 ∧
    admitted (emitAt 0 nopLine).src ∧ (emitAt 0 nopLine).src[(emitAt 0 nopLine).lineNo - 1]? = some nopLine ∧ decode nopLine = .ok (.nop []) :=
  ⟨.inr rfl, by decide, nopLine_admitted, rfl, rfl⟩

theorem witness_DecodeOfEncodedLine : (Instr.cmpj [.reg 15, .hex [], .label ['-', '5']]).wellFormed = true ∧
    (Instr.extra ['L', ':'] [.label nopLine]).wellFormed = true := by decide

theorem witness_DecodedLinesAreWellFormed : decode ['i', 'n', 'c', ' ', '0', 'x', 'G'] = .ok (.inc [.hex ['G']]) := by rfl

theorem witness_CleanLine : (∀ c ∈ [' ', 'A'], c ≠ ';') ∧ (clean [' ', 'A', '\t']).head? = some 'A' ∧ (clean [' ', 'A', '\t']).getLast? = some 'A' :=
  ⟨by simp, rfl, rfl⟩

/-- R78: a name that ends in a colon is not admissible in `EXTRA`. -/
theorem test_extra_colon_R78 : (ExtraRow.mk ['L', 'O', 'O', 'P', ':'] 0#4 1).admissible = false ∧ (ExtraRow.mk ['M', 'O', 'V'] 0#4 2).admissible = true := by
  decide

theorem witness_SplitLine : (nopLine ≠ [] ∧ nopLine.all (fun c => !isSpace c) = true) ∧ isSpace '\t' = true ∧ nopLine ∈ split (nopLine ++ [' ']) := by
  decide

theorem witness_LineClassification : clean [';', 'A'] = [] ∧ clean (loop ++ [':', ' ']) = loop ++ [':'] ∧
    clean nopLine ≠ [] ∧ ¬ ∃ n, clean nopLine = n ++ [':'] := by
  refine ⟨rfl, rfl, by decide, ?_⟩
  rintro ⟨n, h⟩
  have h' := congrArg List.getLast? h
  rw [show (clean nopLine).getLast? = some 'P' from rfl, List.getLast?_append] at h'
  simp at h'

theorem witness_CaseOfMnemonicsAndRegisters : Operand.ofToken ['p'] = .reg 15 ∧ Operand.ofToken ['a'] = .reg 0 := by decide

theorem witness_OperandClassBySpelling : Operand.ofToken ['0', 'x'] = .hex [] ∧ Operand.ofToken ['0', 'b', '1'] = .bin ['1'] ∧
    Operand.ofToken ['0', '7'] = .dec ['0', '7'] ∧ Operand.ofToken ['P'] = .reg 15 ∧ Operand.ofToken ['Q'] = .label ['Q'] := by decide

theorem witness_NumericLiteralFields : digitOf 16 'f' = some 15 ∧ digitOf 16 'F' = some 15 ∧ digitOf 2 '2' = none ∧
    (['5'] ≠ ([] : Text) ∧ ∀ c ∈ ['5'], (digitOf 10 c).isSome = true) ∧ allDecimal ['0', '0', '7'] = true ∧
    parseBase 16 ['G'] = none ∧ parseBase 2 [] = none :=
  ⟨rfl, rfl, rfl, ⟨List.cons_ne_nil _ _, fun c hc => by cases List.mem_singleton.mp hc; rfl⟩, rfl, rfl, rfl⟩

theorem witness_RegisterFieldIsFourBits :
    ['A', 'B', 'C', 'D', 'E', 'F', 'G', 'H', 'I', 'J', 'K', 'L', 'M', 'N', 'O', 'P'][15]? = some (upperChar 'p') ∧
    ['A', 'B', 'C', 'D', 'E', 'F', 'G', 'H', 'I', 'J', 'K', 'L', 'M', 'N', 'O', 'P'][0]? = some (upperChar 'A') := by decide

theorem witness_LabelUnderJmpIsDirect : LabelTable.get [(loop, 255)] loop = some 255 ∧ LabelTable.has [(loop, 255)] done = false := by decide

theorem witness_LabelElsewhereIsForwardOffset : Mnemonic.ldi ≠ .jmp ∧ (LabelTable.get [(done, 4)] done = some 4 ∧ 4 < 5) ∧
    (LabelTable.get [(done, 4)] done = some 4 ∧ 4 ≤ 4) ∧ LabelTable.has [(done, 4)] loop = false := by decide

theorem witness_RenderKeepsEveryDigit : (1 ≤ 4 ∧ valBits [true, true, true, true] = 15 ∧ 15 < 2 ^ 4) ∧ ¬ 16 < 2 ^ 4 := by decide

theorem witness_OperandEncoderOutcomes : 4 ≤ opWidth .cmpj ∧ 4 ≤ opWidth .jmp := by decide

theorem witness_OnlyLabelOperandsReadState : ∀ n, Operand.label n ∉ [Operand.reg 0, .hex ['5']] := by simp

theorem witness_OperandWidthOfMnemonic : encodeInstr tFix .adi [.reg 2, .reg 2, .dec ['3']] 0 [] = .ok (bitsOf 0b1001001000100011#16) ∧
    encodeInstr tFix .ldi [.reg 0, .dec ['5']] 0 [] = .ok (bitsOf 0b0001000000000101#16) := ⟨rfl, rfl⟩

theorem witness_PadFillsTheWord : tFix.lookup .inc = some (0b1100#4, 2) ∧
    encodeOperands .inc (opWidth .inc) 0 [] [.reg 2, .reg 3] = .ok [bitsOf 0b0010#4, bitsOf 0b0011#4] ∧
    encodeInstr tFix .inc [.reg 2, .reg 3] 0 [] = .ok (bitsOf 0b1100001000000011#16) := ⟨rfl, rfl, rfl⟩

theorem witness_WordLengthAndOverlong : encodeInstr tFix .ldi [.reg 0, .dec ['2', '5', '5']] 0 [] = .ok (bitsOf 0b0001000011111111#16) ∧
    overlong (.ok (bitsOf 0b0001000011111111#16)) = false ∧
    encodeInstr tFix .ldi [.reg 0, .dec ['2', '5', '6']] 0 [] = .ok (bitsOf 0b00010000100000000#17) ∧
    overlong (.ok (bitsOf 0b00010000100000000#17)) = true := ⟨rfl, by decide, rfl, by decide⟩

theorem witness_HaltWord : ((emitAt 255 []).pass = .emit ∧ (emitAt 255 []).outAddr < 256) ∧ upper ['h', 'a', 'L', 't'] = ['H', 'A', 'L', 'T'] ∧
    State.reset.img.fill.unlisted 255 = some (zeros 16) ∧ State.reset.img.fill.unlisted 256 = none := by decide

theorem witness_NopWord : ((emitAt 0 []).pass = .emit ∧ (emitAt 0 []).outAddr < 256) ∧ upper ['n', 'O', 'p'] = ['N', 'O', 'P'] := by decide

/-- Meets the hypotheses of LdiWritesItsWord, AddWritesItsWord and GapWriteTheirWord, register operands and a label ahead. -/
theorem witness_WritesItsWord : (emitAt 255 []).pass = .emit ∧ (emitAt 255 []).outAddr < 256 ∧
    encodeOperand .ldi 8 255 [(done, 510)] (.label done) = .ok (bitsOf 0b11111111#8) ∧
    encodeOperand .add 8 255 [] (.reg 15) = .ok (bitsOf 0b1111#4) ∧ encodeOperand .dec 8 255 [] (.reg 0) = .ok (bitsOf 0b0000#4) ∧
    encodeOperand .inc 8 255 [] (.dec ['0']) = .ok (bitsOf 0b00000000#8) := ⟨rfl, by decide, rfl, rfl, rfl, rfl⟩

theorem witness_NarrowWriteTheirWord : ∀ (n : Nat) (mn : Mnemonic), (List.replicate n (Operand.reg 0)).length = n ∧
    encodeOperands mn 4 0 [] (List.replicate n (Operand.reg 0)) = .ok (List.replicate n (zeros 4)) := by
  intro n mn
  refine ⟨List.length_replicate, ?_⟩
  induction n with
  | zero => rfl
  | succ n ih => rw [List.replicate_succ, encodeOperands, ih]; rfl

theorem witness_JmpWritesItsWord : encodeOperand .jmp 8 9 [(loop, 3)] (.label loop) = .ok (bitsOf 0b00000011#8) ∧
    LabelTable.get [(loop, 3)] loop = some 3 := ⟨rfl, by decide⟩

theorem witness_RegisterFormats : literalValue (.hex ['f', 'f']) = some 255 ∧ literalValue (.dec ['2', '5', '6']) = some 256 := by decide

theorem witness_NarrowFormatRRN4 : (tFix.aAdi = 3 ∧ tFix.aCmpj = 3) ∧ literalValue (.dec ['1', '5']) = some 15 ∧
    LabelTable.get [(done, 22)] done = some (7 + 15) ∧ LabelTable.get [(done, 7)] done = some (7 + 0) := by decide

theorem witness_JmpFormatL8 : literalValue (.dec ['2', '5', '5']) = some 255 ∧ LabelTable.get [(loop, 0)] loop = some 0 := by decide

theorem witness_ArityErrorOnWrongCount : tFix.lookup .jmp = some (0b1101#4, 1) ∧ ([] : List Operand).length ≠ 1 ∧ [Operand.reg 0, .reg 1].length ≠ 1 ∧
    tables.lookup (Instr.jmp []).mnemonic = some (Config.pJmp, 1) := ⟨rfl, by decide, by decide, rfl⟩

theorem witness_UnknownMnemonicAborts : tFix.lookup (.extra ['M', 'O', 'V']) = none ∧ tables.lookup (.extra ['m', 'o', 'v']) = none := by
  refine ⟨rfl, ?_⟩
  show extraLookup (Config.extraRows.filter ExtraRow.admissible) _ = none
  induction Config.extraRows with
  | nil => rfl
  | cons r rest ih =>
    rw [List.filter_cons]
    split
    · next h =>
      rw [extraLookup, if_neg, ih]
      rintro hn
      simp only [ExtraRow.admissible, Bool.and_eq_true, beq_iff_eq] at h
      rw [hn] at h
      exact absurd h.1 (by decide)
    · exact ih

theorem witness_LeftmostFailingOperandReported : tFix.lookup .cmpj = some (0b1010#4, [Operand.reg 0].length + 1 + [Operand.label done].length) ∧
    encodeOperands .cmpj (opWidth .cmpj) 5 [] [.reg 0] = .ok [zeros 4] ∧
    encodeOperand .cmpj (opWidth .cmpj) 5 [] (.hex ['Z']) = .error (.encodingError ['0', 'x', 'Z']) := ⟨rfl, rfl, rfl⟩

theorem witness_TableWordLinesAssemble : decodeTableWord 16 0 = some (.halt []) ∧ decodeTableWord 16 0xF000 = some (.nop []) ∧
    decodeTableWord 16 0x1FFF = some (.ldi [.reg 15, .hex ['f', 'f']]) := ⟨rfl, rfl, rfl⟩

theorem witness_PassOneCountsInstructionLines : (labelsAt 255 nopLine).pass = .labels := by rfl

theorem witness_PassTwoCallsTheBlock : (emitAt 255 nopLine).pass = .emit ∧ (emitAt 255 nopLine).outAddr < 256 ∧
    admitted (emitAt 255 nopLine).src ∧
    (emitAt 255 nopLine).currentLine = some nopLine ∧ endsInColon (clean nopLine) = false ∧ split (clean nopLine) = [nopLine] :=
  ⟨rfl, by decide, nopLine_admitted, by decide, by decide, by decide⟩

theorem loop_admitted : admitted [loop ++ [':']] := ⟨by decide, by decide⟩

theorem witness_LabelDeclarationInPassOne : (labelsAt 5 (loop ++ [':'])).pass = .labels ∧ admitted (labelsAt 5 (loop ++ [':'])).src ∧
    (labelsAt 5 (loop ++ [':'])).currentLine = some (loop ++ [':']) ∧ readLine (loop ++ [':']) = .label loop ∧
    2 ≤ loop.length ∧ (labelsAt 5 (loop ++ [':'])).lt.has loop = false ∧ LabelTable.has [(loop, 0)] loop = true :=
  ⟨rfl, loop_admitted, by decide, by decide, by decide, by decide, by decide⟩

/-- The short and the least admissible name of LabelDeclarationInPassOne. -/
theorem witness_LabelDeclarationInPassOne_short : admitted (labelsAt 0 ['X', ':']).src ∧ readLine ['X', ':'] = .label ['X'] ∧ ['X'].length < 2 ∧
    readLine ['A', 'B', ':'] = .label ['A', 'B'] ∧ 2 ≤ ['A', 'B'].length :=
  ⟨⟨by decide, by decide⟩, by decide, by decide, by decide, by decide⟩

theorem witness_LabelDeclarationInPassTwo : (emitAt 5 (loop ++ [':'])).pass = .emit ∧ admitted (emitAt 5 (loop ++ [':'])).src ∧
    (emitAt 5 (loop ++ [':'])).currentLine = some (loop ++ [':']) ∧ readLine (loop ++ [':']) = .label loop :=
  ⟨rfl, loop_admitted, by decide, by decide⟩

theorem witness_BlankLinesAreSkipped : ((labelsAt 0 [';']).pass = .labels ∨ (labelsAt 0 [';']).pass = .emit) ∧ admitted (labelsAt 0 [';']).src ∧
    (labelsAt 0 [';']).currentLine = some [';'] ∧ clean [';'] = [] := ⟨.inl rfl, ⟨by decide, by decide⟩, by decide, by decide⟩

/-- `LOOP: NOP` in pass 2 meets the hypotheses (R78, I64). -/
theorem witness_LabelBeforeInstructionAborts :
    admitted (emitAt 255 (loop ++ [':', ' '] ++ nopLine)).src ∧
    (emitAt 255 (loop ++ [':', ' '] ++ nopLine)).currentLine = some (loop ++ [':', ' '] ++ nopLine) ∧
    split (clean (loop ++ [':', ' '] ++ nopLine)) = [loop ++ [':'], nopLine] ∧ endsInColon (clean (loop ++ [':', ' '] ++ nopLine)) = false :=
  ⟨⟨by decide, by decide⟩, by decide, by decide, by decide⟩

/-- The last state of pass 1 over one line. -/
def endOfLabels (a : Nat) : State := { labelsAt a nopLine with lineNo := 2 }

theorem witness_PassTransition : (endOfLabels 1).pass = .labels ∧ admitted (endOfLabels 1).src ∧
    (endOfLabels 1).lineNo = (endOfLabels 1).src.length + 1 := ⟨rfl, nopLine_admitted, by decide⟩

/-- The last state of pass 2 over the source of one `NOP`, and the state a run on it ends in. -/
def endOfEmit : State := { (emitAt 0 nopLine).emit nopWord with lineNo := 2 }

theorem endOfEmit_inv : endOfEmit.RunInv where
  imgWf := by decide
  ltWf := by decide
  lineRange := by decide
  addresses := by decide
  wordLength := by decide
  pcCounts := by decide
  labelsEmpty := by decide
  emitSame := by decide
  doneCount := by decide
  recordsMean := by
    intro r hr
    have hr' : r ∈ [(⟨0, nopWord⟩ : Record)] := hr
    rw [List.mem_singleton] at hr'
    subst hr'
    exact ⟨.nop [], rfl, rfl⟩
  ltMeaning := by
    intro _ n a
    rw [show declared endOfEmit.labelLines 0 = [] from rfl, show endOfEmit.lt = [] from rfl]
    simp [LabelTable.get]
  ltNames := by decide
  marks := by decide
  sourceAdmitted := fun _ => nopLine_admitted
  reported := by decide

theorem endOfEmit_finish_inv : endOfEmit.finish.RunInv where
  imgWf := by decide
  ltWf := by decide
  lineRange := by decide
  addresses := by decide
  wordLength := by decide
  pcCounts := by decide
  labelsEmpty := by decide
  emitSame := by decide
  doneCount := by decide
  recordsMean := endOfEmit_inv.recordsMean
  ltMeaning := fun _ => endOfEmit_inv.ltMeaning (by decide)
  ltNames := by decide
  marks := by decide
  sourceAdmitted := fun _ => nopLine_admitted
  reported := by decide

theorem load_inv : (State.load [nopLine]).RunInv where
  imgWf := by decide
  ltWf := by decide
  lineRange := by decide
  addresses := by decide
  wordLength := by decide
  pcCounts := by decide
  labelsEmpty := by decide
  emitSame := by decide
  doneCount := by decide
  recordsMean := by decide
  ltMeaning := by
    intro _ n a
    rw [show declared (State.load [nopLine]).labelLines 0 = [] from rfl, show (State.load [nopLine]).lt = [] from rfl]
    simp [LabelTable.get]
  ltNames := by decide
  marks := by decide
  sourceAdmitted := fun _ => nopLine_admitted
  reported := by decide

theorem witness_EndOfSuccessfulRun : endOfEmit.RunInv ∧ endOfEmit.pass = .emit ∧ endOfEmit.lineNo = endOfEmit.src.length + 1 :=
  ⟨endOfEmit_inv, by decide, by decide⟩

theorem witness_NothingFollowsTheEnd : endOfEmit.finish.pass = .done ∧ (endOfEmit.abort (.labelError loop)).pass = .aborted := by decide

/-- `n` lines of `NOP`, and more lines after them. -/
def nopsThen (n : Nat) (rest : List Text) : List Text := List.replicate n nopLine ++ rest

theorem instrCount_nopsThen (n : Nat) (rest : List Text) : instrCount (nopsThen n rest) = n + instrCount rest := by
  induction n with
  | zero => simp [nopsThen]
  | succ n ih =>
    rw [nopsThen, List.replicate_succ, List.cons_append]
    simp only [instrCount, instrs, show readLine nopLine = .instr (.nop []) from rfl, List.length_cons]
    simp only [instrCount, nopsThen] at ih
    rw [ih]; omega

/-- 256 instruction lines meet the first clause, also before a line in error; a spaced name meets the second, also after one. -/
theorem witness_RefusedSources : 256 ≤ instrCount (State.load (nopsThen 256 [['X', ':']])).src ∧
    (State.load [['X', ':'], ['A', ' ', 'B', ':']]).lineNo ≠ 0 ∧ instrCount (State.load [['X', ':'], ['A', ' ', 'B', ':']]).src < 256 ∧
    ∃ e ∈ declared (State.load [['X', ':'], ['A', ' ', 'B', ':']]).src 0, e.1.any isSpace = true :=
  ⟨by rw [State.load_src, instrCount_nopsThen]; omega, by decide, by decide, by decide⟩

/-- A program too long is refused at its first step, whatever error a later line holds (R52). -/
theorem test_too_long_R52 : step (State.load (nopsThen 300 [['X', ':']])) = .refused .programTooLong := by
  have h : sourceRefusal (nopsThen 300 [['X', ':']]) = some .programTooLong := by
    rw [sourceRefusal, if_pos (by rw [instrCount_nopsThen]; simp only [Config.depth]; omega)]
  rw [step, show (State.load (nopsThen 300 [['X', ':']])).stopped = none from rfl, State.load_src, h]

/-- 255 instruction lines have a run (R52). -/
theorem test_longest_R52 : instrCount (nopsThen 255 []) < Config.depth := by
  rw [instrCount_nopsThen, show instrCount [] = 0 from rfl]; decide

/-- A spaced name is refused before an error in an earlier line (D11). -/
theorem test_spaced_name_D11 : step (State.load [['X', ':'], ['A', ' ', 'B', ':']]) = .refused .labelNameWithWhitespace := by rfl

theorem witness_AbortKeepsEverythingElse :
    (step (emitAt 0 ['N', 'O', 'P', ' ', '1']) = .next ((emitAt 0 ['N', 'O', 'P', ' ', '1']).abort (.arityError nopLine 1 0)) ∧
      ((emitAt 0 ['N', 'O', 'P', ' ', '1']).abort (.arityError nopLine 1 0)).pass = .aborted) ∧
    step (labelsAt 0 [':']) = .next ((labelsAt 0 [':']).abort (.shortLabelError [])) := ⟨⟨rfl, rfl⟩, rfl⟩

/-- Meets the hypotheses of PassMovesForward, SourceFixedAndLabelsWriteOnce, RecordsAreAppended, MemoryFormsKept, RunInvariantKept and
StepsLeftDecrease: a move in pass 1 and a move in pass 2. -/
theorem witness_Step : (State.load [nopLine]).RunInv ∧ step (State.load [nopLine]) = .next (State.load [nopLine]).countLine ∧
    endOfEmit.RunInv ∧ step endOfEmit = .next endOfEmit.finish ∧ (State.load [nopLine]).img.wf ∧ (State.load [nopLine]).lt.wf :=
  ⟨load_inv, rfl, endOfEmit_inv, rfl, by decide, by decide⟩

/-- A step of pass 1 that makes an entry and leaves one there, for SourceFixedAndLabelsWriteOnce. -/
theorem witness_SourceFixedAndLabelsWriteOnce :
    step { labelsAt 5 (loop ++ [':']) with lt := [(done, 1)] } = .next { labelsAt 5 (loop ++ [':']) with lt := [(done, 1), (loop, 5)], lineNo := 2 } ∧
    LabelTable.get [(done, 1)] done = some 1 ∧ [(done, 1), (loop, 5)] ≠ [(done, 1)] := ⟨rfl, by decide, by decide⟩

theorem witness_InstructionFrame : exec (.nop []) (labelsAt 0 nopLine) = .next (labelsAt 0 nopLine).countLine ∧
    exec (.nop []) (emitAt 255 nopLine) = .next ((emitAt 255 nopLine).emit nopWord) ∧
    exec (.jmp []) (emitAt 0 nopLine) = .next ((emitAt 0 nopLine).abort (.arityError ['J', 'M', 'P'] 0 1)) ∧
    ¬ ((emitAt 255 nopLine).pass = .emit ∧ ((emitAt 255 nopLine).emit nopWord).pass = .emit ∧ 254 = (emitAt 255 nopLine).outAddr) :=
  ⟨rfl, rfl, rfl, by decide⟩

theorem witness_StartOfRunAndOfPassTwo : (State.reset = State.reset ∨ ∃ src, State.reset = State.load src) ∧
    step (endOfLabels 1) = .next (endOfLabels 1).beginEmit ∧ (endOfLabels 1).pass = .labels ∧ (endOfLabels 1).beginEmit.pass = .emit :=
  ⟨.inl rfl, rfl, rfl, rfl⟩

theorem witness_FinalImage : endOfEmit.finish.RunInv ∧ endOfEmit.finish.pass = .done ∧
    (instrs endOfEmit.finish.src)[0]? = some (.nop []) ∧ instrCount endOfEmit.finish.src ≤ 1 ∧ endOfEmit.pass ≠ .done ∧
    endOfEmit.finish.img.loadable = true ∧ endOfEmit.finish.img.read 0 = some nopWord ∧
    Memory.read ⟨[⟨0, zeros 17⟩], true, true⟩ 0 = some (zeros 17) ∧ (zeros 17).length ≠ 16 :=
  ⟨endOfEmit_finish_inv, by decide, by decide, by decide, by decide, by decide, by decide, by decide, by decide⟩

theorem witness_AdmittedSourcesAreRun : (State.load [nopLine]).RunInv ∧ admitted (State.load [nopLine]).src ∧
    ¬ admitted [['A', ' ', 'B', ':']] := by
  refine ⟨load_inv, nopLine_admitted, fun h => ?_⟩
  have h' := h.2 (['A', ' ', 'B'], 0) (by decide)
  exact absurd h' (by decide)

end Sys2Proof.Tests
end

section
/-! PROOFS. The state of a run: what one step can do to it, and the statements of spec/10_state.md that follow. -/

namespace Sys2Proof.Machine

/-! ### The moves of the sequencer -/

/-- The moves a step can make from `s`, each with the pass it belongs to and what the sequencer has tested before it (R151, R165). -/
inductive Move (s : State) : State → Prop where
  /-- A blank line in either pass, or a label line in pass 2 (R152, R155). -/
  | skip (hp : s.pass = .labels ∨ s.pass = .emit) : Move s s.skipLine
  /-- An instruction line in pass 1 (R156). -/
  | count (hp : s.pass = .labels) : Move s s.countLine
  /-- A label line in pass 1 whose name is long enough and has no entry yet (R154). -/
  | declare (hp : s.pass = .labels) {raw n : Text} (hc : s.currentLine = some raw) (hl : readLine raw = .label n)
      (hlen : Config.minLabelLen ≤ n.length) (hnew : s.lt.has n = false) : Move s (s.declare n)
  /-- An instruction line in pass 2 that encodes (R157). -/
  | emit (hp : s.pass = .emit) (ha : s.outAddr < Config.depth) (w : Bits) : Move s (s.emit w)
  /-- The first error, in either pass (R160). -/
  | abort (hp : s.pass = .labels ∨ s.pass = .emit) (e : ErrorInfo) : Move s (s.abort e)
  /-- The end of pass 1 (R158). -/
  | beginEmit (hp : s.pass = .labels) : Move s s.beginEmit
  /-- The end of pass 2 (R159). -/
  | finish (hp : s.pass = .emit) (ha : s.outAddr < Config.depth) : Move s s.finish

theorem exec_move {i : Instr} {s t : State} (h : exec i s = .next t) : Move s t := by
  obtain ⟨hp, rfl⟩ | ⟨hp, ha, ⟨w, rfl⟩ | ⟨e, rfl⟩⟩ := exec_next h
  · exact .count hp
  · exact .emit hp ha w
  · exact .abort (.inr hp) e

theorem labelLine_move {s t : State} {raw n : Text} (hc : s.currentLine = some raw) (hl : readLine raw = .label n)
    (h : labelLine n s = .next t) : Move s t := by
  obtain ⟨hp, ⟨-, rfl⟩ | ⟨-, -, rfl⟩ | ⟨hlen, hnew, rfl⟩⟩ | ⟨hp, rfl⟩ := labelLine_next h
  · exact .abort (.inl hp) _
  · exact .abort (.inl hp) _
  · exact .declare hp hc hl hlen hnew
  · exact .skip (.inr hp)

theorem endOfPass_move {s t : State} (h : endOfPass s = .next t) : Move s t := by
  obtain ⟨hp, rfl⟩ | ⟨hp, ha, rfl⟩ := endOfPass_next h
  · exact .beginEmit hp
  · exact .finish hp ha

/-- Every step to a next state is one of the moves. -/
theorem step_move {s t : State} (h : step s = .next t) : Move s t := by
  obtain ⟨hs, -, ⟨raw, hc, ⟨-, rfl⟩ | ⟨n, hl, h⟩ | ⟨i, -, h⟩⟩ | ⟨-, h⟩⟩ := step_next h
  · exact .skip (stopped_eq_none.mp hs).1
  · exact labelLine_move hc hl h
  · exact exec_move h
  · exact endOfPass_move h

/-! ### What a move keeps -/

theorem Move.keeps_src {s t : State} (m : Move s t) : t.src = s.src := by
  cases m <;> rfl

/-- The image is rewritten only by a record at an `out_addr` inside it and by the two marks (R45 to R47). -/
theorem Move.keeps_img_wf {s t : State} (m : Move s t) (h : s.img.wf) : t.img.wf := by
  cases m with
  | emit _ ha w => exact Memory.wf_write h ha w
  | finish => exact Memory.wf_terminate (Memory.wf_fill h)
  | skip | count | declare | abort | beginEmit => exact h

/-- The Label Table is rewritten only by a declaration (R41). -/
theorem Move.lt_eq_or_declare {s t : State} (m : Move s t) : t.lt = s.lt ∨
    s.pass = .labels ∧ ∃ raw n, s.currentLine = some raw ∧ readLine raw = .label n ∧ t.lt = s.lt.insert n s.pc := by
  cases m with
  | declare hp hc hl => exact .inr ⟨hp, _, _, hc, hl, rfl⟩
  | skip | count | emit | abort | beginEmit | finish => exact .inl rfl

/-- An entry of the table survives every insertion, one of its own name included (R41). -/
theorem LabelTable.get_insert_of_get {t : LabelTable} {n : Text} {a : Nat} (h : t.get n = some a) (m : Text) (b : Nat) :
    (t.insert m b).get n = some a := by
  rw [LabelTable.get_insert, if_neg, h]
  rintro ⟨rfl, hnew⟩
  simp [LabelTable.has, h] at hnew

/-! ### The statements about steps and instructions -/

/-- Settles O53: only `emit` and `finish` touch the image, only `declare` the table, and each operation keeps its memory's form. -/
theorem memoryFormsKept : Obligations.MemoryFormsKept := by
  intro s t himg hlt h
  have m := step_move h
  refine ⟨m.keeps_img_wf himg, ?_⟩
  obtain heq | ⟨-, _, n, -, -, heq⟩ := m.lt_eq_or_declare
  · rwa [heq]
  · rw [heq]
    exact LabelTable.wf_insert hlt n s.pc

/-- Settles O47, move by move. -/
theorem passMovesForward : Obligations.PassMovesForward := by
  intro s t h
  cases step_move h with
  | skip hp => exact hp.imp (fun hp => ⟨hp, .inl hp⟩) (fun hp => ⟨hp, .inl hp⟩)
  | count hp => exact .inl ⟨hp, .inl hp⟩
  | declare hp => exact .inl ⟨hp, .inl hp⟩
  | emit hp => exact .inr ⟨hp, .inl hp⟩
  | abort hp => exact hp.imp (fun hp => ⟨hp, .inr (.inr rfl)⟩) (fun hp => ⟨hp, .inr (.inr rfl)⟩)
  | beginEmit hp => exact .inl ⟨hp, .inr (.inl rfl)⟩
  | finish hp => exact .inr ⟨hp, .inr (.inl rfl)⟩

/-- Settles O49: a table that changed was changed by a declaration, and an insertion keeps every entry. -/
theorem sourceFixedAndLabelsWriteOnce : Obligations.SourceFixedAndLabelsWriteOnce := by
  intro s t h
  have m := step_move h
  refine ⟨m.keeps_src, ?_⟩
  obtain heq | ⟨hp, raw, n, hc, hl, heq⟩ := m.lt_eq_or_declare
  · exact ⟨fun n a hn => heq ▸ hn, fun hne => absurd heq hne⟩
  · exact ⟨fun k a hk => heq ▸ LabelTable.get_insert_of_get hk n s.pc, fun _ => ⟨hp, raw, n, hc, hl⟩⟩

/-- Settles O48: an instruction counts, writes its one record or aborts. -/
theorem instructionFrame : Obligations.InstructionFrame := by
  intro i s t h
  obtain ⟨hp, rfl⟩ | ⟨hp, -, ⟨w, rfl⟩ | ⟨e, rfl⟩⟩ := exec_next h
  · simp [hp]
  · have hread : ∀ a, ¬ a = s.outAddr → (s.img.write s.outAddr w).read a = s.img.read a := fun a ha => by
      rw [Memory.read_write, if_neg ha]
    simpa [hp] using hread
  · simp [hp]

/-! ### The start of a run -/

/-- The invariant at the start: no line is handled, so nothing is declared, counted or written yet (R33, R211). -/
theorem load_runInv (src : List Text) : (State.load src).RunInv where
  imgWf := reset_wf.1
  ltWf := reset_wf.2
  lineRange := by simp
  addresses := by simp
  wordLength := by simp
  pcCounts := fun _ => by simp [instrCount, instrs]
  labelsEmpty := fun _ => rfl
  emitSame := by simp
  doneCount := by simp
  recordsMean := by simp
  ltMeaning := fun _ n a => by simp [State.labelLines, declared, LabelTable.get]
  ltNames := by simp
  marks := by simp
  sourceAdmitted := fun hp => absurd rfl hp
  reported := by simp

/-- Settles O55: the reset state is the start of a run on the empty source. -/
theorem runInvariantAtStart : Obligations.RunInvariantAtStart :=
  ⟨load_runInv [], load_runInv⟩

/-! ### The block's ports -/

theorem numberField_eq_error {b w : Nat} {token d : Text} {e : ErrorInfo} (h : numberField b token d w = .error e) :
    e = .encodingError token := by
  unfold numberField at h
  split at h <;> cases h
  rfl

theorem directField_eq_error {n : Text} {w : Nat} {lt : LabelTable} {e : ErrorInfo} (h : directField n w lt = .error e) :
    e = .labelError n := by
  unfold directField at h
  split at h <;> cases h
  rfl

theorem relativeField_eq_error {n : Text} {w pc : Nat} {lt : LabelTable} {e : ErrorInfo}
    (h : relativeField n w pc lt = .error e) : e = .labelError n ∨ e = .negativeJumpError n := by
  unfold relativeField at h
  split at h
  · split at h <;> cases h
    exact .inr rfl
  · cases h
    exact .inl rfl

/-- The three errors of the Operand Encoder, each of which names the token; the third never arises in direct mode (R98, R100). -/
theorem encodeOperand_eq_error {mn : Mnemonic} {w pc : Nat} {lt : LabelTable} {o : Operand} {e : ErrorInfo}
    (h : encodeOperand mn w pc lt o = .error e) : e = .encodingError o.token ∨ e = .labelError o.token ∨
      (isDirect mn = false ∧ e = .negativeJumpError o.token) := by
  cases o with
  | hex d => exact .inl (numberField_eq_error h)
  | bin d => exact .inl (numberField_eq_error h)
  | dec d => exact .inl (numberField_eq_error h)
  | reg r => cases h
  | label n =>
    cases hd : isDirect mn <;> simp only [encodeOperand, hd] at h
    · exact .inr ((relativeField_eq_error h).imp id fun he => ⟨rfl, he⟩)
    · exact .inr (.inl (directField_eq_error h))

/-- An error of a list of operands is the error of one of them (R121, R190). -/
theorem encodeOperands_eq_error {mn : Mnemonic} {w pc : Nat} {lt : LabelTable} {ops : List Operand} {e : ErrorInfo}
    (h : encodeOperands mn w pc lt ops = .error e) : ∃ o ∈ ops, encodeOperand mn w pc lt o = .error e := by
  induction ops with
  | nil => cases h
  | cons o rest ih =>
    rw [encodeOperands_cons] at h
    obtain h | ⟨f, -, h⟩ := andThen_eq_error.mp h
    · exact ⟨o, List.mem_cons_self, h⟩
    · obtain h | ⟨fs, -, h⟩ := andThen_eq_error.mp h
      · obtain ⟨p, hp, he⟩ := ih h
        exact ⟨p, List.mem_cons_of_mem o hp, he⟩
      · cases h

/-- The block fails at the mnemonic, at the count, or at one of the operands (R121, R190). -/
theorem encodeInstr_eq_error {T : Tables} {mn : Mnemonic} {ops : List Operand} {pc : Nat} {lt : LabelTable} {e : ErrorInfo}
    (h : encodeInstr T mn ops pc lt = .error e) : e = .unknownOpcodeError mn.name ∨
      (∃ n, e = .arityError mn.name ops.length n) ∨ ∃ o ∈ ops, encodeOperand mn (opWidth mn) pc lt o = .error e := by
  unfold encodeInstr at h
  split at h
  · cases h
    exact .inl rfl
  · next code n _ =>
    split at h
    · obtain h | ⟨fs, -, h⟩ := andThen_eq_error.mp h
      · exact .inr (.inr (encodeOperands_eq_error h))
      · cases h
    · cases h
      exact .inr (.inl ⟨n, rfl⟩)

/-- The block's errors are the first five kinds in the order of R189. -/
theorem encodeInstr_error_status {T : Tables} {mn : Mnemonic} {ops : List Operand} {pc : Nat} {lt : LabelTable}
    {e : ErrorInfo} (h : encodeInstr T mn ops pc lt = .error e) : 1 ≤ statusCode (some e) ∧ statusCode (some e) ≤ 5 := by
  obtain rfl | ⟨n, rfl⟩ | ⟨o, -, ho⟩ := encodeInstr_eq_error h
  · simp [statusCode]
  · simp [statusCode]
  · obtain rfl | rfl | ⟨-, rfl⟩ := encodeOperand_eq_error ho <;> simp [statusCode]

/-- Settles O35: the ports follow the outcome of the block, whose errors have the codes 1 to 5. -/
theorem blockPorts : Obligations.BlockPorts := by
  refine ⟨by simp [statusCode], fun T mnRaw toks pc lt => ?_⟩
  cases h : encodeTokens T mnRaw toks pc lt with
  | ok s => exact .inl ⟨s, by rw [blockOut, h]; rfl, rfl⟩
  | error e => exact .inr ⟨e, by rw [blockOut, h], rfl, encodeInstr_error_status h⟩

end Sys2Proof.Machine
end

section
/-! PROOFS. The three memories of spec/20_memory.md: the sources that are refused, and the records and contents of the image. -/

namespace Sys2Proof.Machine

/-! ### The sources that have no run -/

theorem sourceRefusal_of_tooLong {src : List Text} (h : Config.depth ≤ instrCount src) :
    sourceRefusal src = some .programTooLong :=
  if_pos h

theorem exists_sourceRefusal_iff {src : List Text} : (∃ r, sourceRefusal src = some r) ↔ ¬ admitted src := by
  rw [← sourceRefusal_eq_none, ← ne_eq, Option.ne_none_iff_exists']

/-- On a source short enough the one refusal left is that of a spaced name (R153). -/
theorem sourceRefusal_of_not_admitted {src : List Text} (hlen : instrCount src < Config.depth) (h : ¬ admitted src) :
    sourceRefusal src = some .labelNameWithWhitespace := by
  obtain ⟨r, hr⟩ := exists_sourceRefusal_iff.mpr h
  rw [sourceRefusal, if_neg (by omega)] at hr ⊢
  by_cases hs : src.any declaresSpacedName = true
  · exact if_pos hs
  · rw [if_neg hs] at hr
    cases hr

/-- A move of the sequencer on a source that has no run is refused, whatever line it is at (R52, R153). -/
theorem step_of_sourceRefusal {s : State} {r : Refusal} (hs : s.stopped = none) (hr : sourceRefusal s.src = some r) :
    step s = .refused r := by
  rw [step, hs, hr]

/-- Settles O45: the step looks at the whole source before it reads a line. -/
theorem refusedSources : Obligations.RefusedSources := by
  intro s hp hl
  have hs : s.stopped = none := stopped_eq_none.mpr ⟨hp, hl⟩
  refine ⟨fun hlen => step_of_sourceRefusal hs (sourceRefusal_of_tooLong hlen), fun hlen ⟨e, he, hspace⟩ => ?_⟩
  refine step_of_sourceRefusal hs (sourceRefusal_of_not_admitted hlen fun ha => ?_)
  simp [ha.2 e he] at hspace

/-! ### The steps that are refused -/

/-- Pass 2 with `out_addr` above the image: the one state in which an operation of the sequencer refuses (R52). -/
def State.atImageEnd (s : State) : Prop := s.pass = .emit ∧ Config.depth ≤ s.outAddr

theorem instrLine_refused {s : State} {r : Except ErrorInfo Bits} {f : Refusal} (h : instrLine s r = .refused f) :
    s.atImageEnd := by
  cases hp : s.pass with
  | emit =>
    simp only [instrLine, hp] at h
    split at h
    · cases h
    · next hlt => exact ⟨hp, Nat.le_of_not_lt hlt⟩
  | labels | done | aborted => simp [instrLine, hp] at h

theorem endOfPass_refused {s : State} {f : Refusal} (h : endOfPass s = .refused f) : s.atImageEnd := by
  cases hp : s.pass with
  | emit =>
    simp only [endOfPass, hp] at h
    split at h
    · cases h
    · next hlt => exact ⟨hp, Nat.le_of_not_lt hlt⟩
  | labels | done | aborted => simp [endOfPass, hp] at h

theorem labelLine_ne_refused (n : Text) (s : State) (f : Refusal) : labelLine n s ≠ .refused f := by
  intro h
  cases hp : s.pass with
  | labels =>
    simp only [labelLine, hp] at h
    split at h
    · cases h
    · split at h <;> cases h
  | emit | done | aborted => simp [labelLine, hp] at h

/-- A step on a source that has a run is refused only above the image (R52). -/
theorem step_refused {s : State} {f : Refusal} (ha : admitted s.src) (h : step s = .refused f) : s.atImageEnd := by
  cases hs : s.stopped with
  | some g => rw [step, hs] at h; cases h
  | none =>
    rw [step_eq hs (sourceRefusal_eq_none.mpr ha)] at h
    split at h
    · exact endOfPass_refused h
    · split at h
      · cases h
      · exact absurd h (labelLine_ne_refused _ _ _)
      · next i _ =>
        obtain ⟨r, hr⟩ := exec_shape i s
        exact instrLine_refused (hr ▸ h)

theorem instrCount_take_le (src : List Text) (k : Nat) : instrCount (src.take k) ≤ instrCount src := by
  have h : instrs src = instrs (src.take k) ++ instrs (src.drop k) := by rw [← instrs_append, List.take_append_drop]
  simp [instrCount, h]

/-- A run stays inside the image: `out_addr` counts the instruction lines handled (R161 b). -/
theorem State.RunInv.not_atImageEnd {s : State} (inv : s.RunInv) : ¬ s.atImageEnd := by
  rintro ⟨hp, hend⟩
  have hcount : s.outAddr = instrCount (s.src.take (s.lineNo - 1)) := by
    rw [← inv.emitSame (.inl hp), inv.pcCounts (.inr hp)]
  have hle := instrCount_take_le s.src (s.lineNo - 1)
  have hlt := (inv.sourceAdmitted (by simp [hp])).1
  omega

theorem runEmit_ne_refused (T : Tables) (lt : LabelTable) (src : List Text) (k pc outAddr : Nat) (records : List Record)
    (f : Refusal) : runEmit T lt src k pc outAddr records ≠ .refused f := by
  induction src generalizing k pc outAddr records with
  | nil => simp [runEmit]
  | cons raw rest ih =>
    rw [runEmit]
    split
    · exact ih _ _ _ _
    · exact ih _ _ _ _
    · split
      · exact ih _ _ _ _
      · simp

/-- `Run(SRC)` refuses a source before it reads its lines, or not at all (R165, R52, R153). -/
theorem runSource_eq_refused {T : Tables} {src : List Text} {f : Refusal} :
    runSource T src = .refused f ↔ sourceRefusal src = some f := by
  unfold runSource
  split
  · next r hr => simp [hr]
  · next hr =>
    rw [hr]
    split <;> simp [runEmit_ne_refused]

/-- Settles O59: the refusals of the whole run are those of its source, and no state of a run stands above the image. -/
theorem admittedSourcesAreRun : Obligations.AdmittedSourcesAreRun := by
  refine ⟨fun src => ?_, fun s inv ha r h => inv.not_atImageEnd (step_refused ha h)⟩
  simp only [runSource_eq_refused]
  exact exists_sourceRefusal_iff

/-! ### The records of a run -/

theorem State.RunInv.addr_lt {s : State} (inv : s.RunInv) {r : Record} (hr : r ∈ s.img.records) : r.addr < s.outAddr := by
  rw [← List.mem_range, ← inv.addresses]
  exact List.mem_map_of_mem hr

theorem State.RunInv.exists_record {s : State} (inv : s.RunInv) {a : Nat} (ha : a < s.outAddr) :
    ∃ r ∈ s.img.records, r.addr = a := by
  rwa [← List.mem_range, ← inv.addresses, List.mem_map] at ha

/-- Settles O50: `emit` writes above every record of the run, and no other move writes one. -/
theorem recordsAreAppended : Obligations.RecordsAreAppended := by
  intro s t inv h
  cases step_move h with
  | emit hp _ w => exact .inr ⟨hp, rfl, w, putRecord_append w fun _ hr => inv.addr_lt hr⟩
  | skip | count | declare | abort | beginEmit | finish => exact .inl ⟨rfl, rfl⟩

/-! ### What an address of the image reads as -/

theorem mem_of_findRecord {rs : List Record} {a : Nat} {w : Bits} (h : findRecord rs a = some w) : ⟨a, w⟩ ∈ rs := by
  induction rs with
  | nil => cases h
  | cons r rest ih =>
    rw [findRecord] at h
    split at h
    · next ha => cases h; cases ha; exact List.mem_cons_self
    · exact List.mem_cons_of_mem r (ih h)

/-- In the canonical form every record is the one found at its address (R44). -/
theorem findRecord_of_mem {rs : List Record} (hrise : rs.Pairwise (fun r q => r.addr < q.addr)) {r : Record} (hr : r ∈ rs) :
    findRecord rs r.addr = some r.word := by
  induction rs with
  | nil => cases hr
  | cons q rest ih =>
    obtain ⟨hq, hrest⟩ := List.pairwise_cons.mp hrise
    rw [findRecord]
    rcases List.mem_cons.mp hr with rfl | hr
    · exact if_pos rfl
    · rw [if_neg (hq r hr).ne]
      exact ih hrest hr

theorem Memory.read_of_mem {m : Memory} (h : m.wf) {r : Record} (hr : r ∈ m.records) : m.read r.addr = some r.word := by
  rw [Memory.read, findRecord_of_mem h.1 hr]

theorem Memory.read_of_forall_ne {m : Memory} {a : Nat} (h : ∀ r ∈ m.records, r.addr ≠ a) : m.read a = m.unlisted a := by
  rw [Memory.read]
  cases hf : findRecord m.records a with
  | none => rfl
  | some w => exact absurd rfl (h _ (mem_of_findRecord hf))

/-- What an address holds comes from a record there or from the fill (R44, R46). -/
theorem Memory.read_eq_some {m : Memory} {a : Nat} {w : Bits} (h : m.read a = some w) :
    ⟨a, w⟩ ∈ m.records ∨ w = zeros Config.wWord := by
  rw [Memory.read] at h
  split at h
  · next hf => cases h; exact .inl (mem_of_findRecord hf)
  · rw [Memory.unlisted] at h
    split at h
    · cases h; exact .inr rfl
    · cases h

theorem Memory.loadable_iff {m : Memory} : m.loadable = true ↔ ∀ r ∈ m.records, r.word.length = 16 := by
  simp [Memory.loadable]

/-- An overlong string is a record's, never the fill's (R46, R132). -/
theorem Memory.length_of_read {m : Memory} (hl : m.loadable = true) {a : Nat} {w : Bits} (h : m.read a = some w) :
    w.length = 16 := by
  obtain hr | rfl := Memory.read_eq_some h
  · exact Memory.loadable_iff.mp hl _ hr
  · exact zeros_length 16

/-- The image can be loaded exactly when every address that holds a word holds 16 bits (R132). -/
theorem Memory.loadable_iff_read {m : Memory} (h : m.wf) :
    m.loadable = true ↔ ∀ a w, m.read a = some w → w.length = 16 :=
  ⟨fun hl _ _ hw => Memory.length_of_read hl hw,
    fun hl => Memory.loadable_iff.mpr fun r hr => hl r.addr r.word (Memory.read_of_mem h hr)⟩

/-! ### The final image -/

theorem State.image_of_not_done {s : State} (hp : s.pass ≠ .done) (a : Nat) : s.image a = none := if_neg hp

theorem State.image_of_done {s : State} (hp : s.pass = .done) (a : Nat) : s.image a = s.img.read a := if_pos hp

/-- The slot of an instruction holds its word, encoded at `pc` equal to the slot with the complete table (R48, R157). -/
theorem State.RunInv.read_of_instr {s : State} (inv : s.RunInv) (hp : s.pass = .done) {a : Nat} {i : Instr}
    (hi : (instrs s.src)[a]? = some i) :
    ∃ w, encodeInstr tables i.mnemonic i.operands a s.lt = .ok w ∧ s.img.read a = some w := by
  have ha : a < s.outAddr := by
    rw [inv.doneCount hp]
    exact (List.getElem?_eq_some_iff.mp hi).1
  obtain ⟨r, hr, rfl⟩ := inv.exists_record ha
  obtain ⟨j, hj, hw⟩ := inv.recordsMean r hr
  obtain rfl : i = j := Option.some.inj (hi.symm.trans hj)
  exact ⟨r.word, hw, Memory.read_of_mem inv.imgWf hr⟩

/-- Above the last instruction no record stands: the fill is read up to 255, and nothing further on (R46, R48). -/
theorem State.RunInv.read_of_le {s : State} (inv : s.RunInv) (hp : s.pass = .done) {a : Nat} (ha : instrCount s.src ≤ a) :
    s.img.read a = if a < 256 then some (zeros 16) else none := by
  have hout := inv.doneCount hp
  rw [Memory.read_of_forall_ne fun r hr => by have := inv.addr_lt hr; omega]
  simp [Memory.unlisted, inv.marks.1.mpr hp]

/-! ### The 16-bit reading -/

theorem bitsOf_ofNat (n v : Nat) : bitsOf (BitVec.ofNat n v) = (List.range n).map fun i => v.testBit (n - 1 - i) := by
  refine List.map_congr_left fun i hi => ?_
  have hin : i < n := List.mem_range.mp hi
  have hlow : n - 1 - i < n := by omega
  simp only [BitVec.getMsbD_eq_getLsbD, BitVec.getLsbD_ofNat, hin, hlow, decide_true, Bool.true_and]

/-- The bits of a number whose leading bit is `b` (R8). -/
theorem bitsOf_ofNat_cons {n v : Nat} (hv : v < 2 ^ n) (b : Bool) :
    bitsOf (BitVec.ofNat (n + 1) (b.toNat * 2 ^ n + v)) = b :: bitsOf (BitVec.ofNat n v) := by
  have hbit (j : Nat) : (b.toNat * 2 ^ n + v).testBit j = if j < n then v.testBit j else b.toNat.testBit (j - n) := by
    rw [Nat.mul_comm, Nat.testBit_two_pow_mul_add _ hv]
  simp only [bitsOf_ofNat, hbit, List.range_succ_eq_map, List.map_cons, List.map_map]
  congr 1
  · cases b <;> simp
  · refine List.map_congr_left fun i hi => ?_
    have hin : i < n := List.mem_range.mp hi
    have hj : n + 1 - 1 - (i + 1) = n - 1 - i := by omega
    rw [Function.comp, hj, if_pos (by omega)]

/-- A bit string is the code of its value at its own length (R8). -/
theorem bitsOf_ofNat_valBits (s : Bits) : bitsOf (BitVec.ofNat s.length (valBits s)) = s := by
  induction s with
  | nil => rfl
  | cons b s ih => rw [valBits_cons, List.length_cons, bitsOf_ofNat_cons (valBits_lt s), ih]

theorem bitsOf_word16Of {s : Bits} (h : s.length = 16) : bitsOf (word16Of s) = s := by
  rw [word16Of, ← h]
  exact bitsOf_ofNat_valBits s

theorem Memory.word16At_of_read {m : Memory} {a : Nat} {s : Bits} (h : m.read a = some s) :
    m.word16At a = if s.length = 16 then some (word16Of s) else none := by
  rw [Memory.word16At, h]

/-- Settles O56: in `DONE` the records are the words of the instructions, and the marks tell that every other address of the image is filled. -/
theorem finalImage : Obligations.FinalImage := by
  refine ⟨fun s hp a => State.image_of_not_done hp a, fun s inv hp => ?_, fun m a s h => ⟨fun hlen => ?_, fun hlen => ?_⟩⟩
  · simp only [State.image_of_done hp]
    refine ⟨(inv.sourceAdmitted (by simp [hp])).1, fun a => ⟨fun i hi => inv.read_of_instr hp hi, fun ha hle => ?_, fun ha hgt => ?_⟩,
      Memory.loadable_iff_read inv.imgWf⟩
    · rw [inv.read_of_le hp ha, if_pos (by omega)]
      rfl
    · rw [inv.read_of_le hp ha, if_neg (by omega)]
  · exact ⟨word16Of s, by rw [Memory.word16At_of_read h, if_pos hlen], bitsOf_word16Of hlen⟩
  · exact ⟨by rw [Memory.word16At_of_read h, if_neg hlen], Bool.eq_false_iff.mpr fun hl => hlen (Memory.length_of_read hl h)⟩

end Sys2Proof.Machine
end

section
/-! PROOFS. Source lines: a line written is read back, case does not matter, and a label before an instruction aborts (spec/30_encoding.md R75
to R78). -/

namespace Sys2Proof

/-! ### Upper case -/

theorem upperChar_toNat (c : Char) :
    (upperChar c).toNat = if 97 ≤ c.toNat ∧ c.toNat ≤ 122 then c.toNat - 32 else c.toNat := by
  unfold upperChar
  split
  · next h => rw [Char.toNat_ofNat, if_pos (by simp [Nat.isValidChar]; omega)]
  · rfl

theorem upperChar_upperChar (c : Char) : upperChar (upperChar c) = upperChar c := by
  have h : ¬ (97 ≤ (upperChar c).toNat ∧ (upperChar c).toNat ≤ 122) := by
    rw [upperChar_toNat]
    split <;> omega
  exact if_neg h

theorem upper_upper (t : Text) : upper (upper t) = upper t := by
  simp [upper, upperChar_upperChar]

/-- A mnemonic token and its upper-cased form stand for one mnemonic (R76). -/
theorem Mnemonic.ofToken_upper (t : Text) : Mnemonic.ofToken (upper t) = Mnemonic.ofToken t := by
  rw [Mnemonic.ofToken, upper_upper, Mnemonic.ofToken]

theorem regOfChar_upperChar (c : Char) : regOfChar (upperChar c) = regOfChar c := by
  simp only [regOfChar, upperChar_upperChar]

/-- A register token and its upper-cased form name one register (R95). -/
theorem regOfToken_upper : ∀ t : Text, regOfToken (upper t) = regOfToken t
  | [] => rfl
  | [c] => regOfChar_upperChar c
  | _ :: _ :: _ => rfl

/-! ### The class of a token -/

theorem regOfToken_eq_some {t : Text} {r : Reg} (h : regOfToken t = some r) : ∃ c, t = [c] ∧ regOfChar c = some r := by
  unfold regOfToken at h
  split at h
  · next c => exact ⟨c, rfl, h⟩
  · cases h

/-- No register letter is a decimal digit. -/
theorem regOfChar_of_isDecimalDigit {c : Char} (h : isDecimalDigit c = true) : regOfChar c = none := by
  simp only [isDecimalDigit, Bool.and_eq_true, decide_eq_true_eq] at h
  refine dif_neg ?_
  rw [upperChar_toNat]
  split <;> omega

/-- The register test stands last but one in R91, and none of the tests before it meets a register token. -/
theorem Operand.ofToken_eq_reg {t : Text} {r : Reg} : Operand.ofToken t = .reg r ↔ regOfToken t = some r := by
  constructor
  · intro h
    unfold Operand.ofToken at h
    split_ifs at h
    split at h
    · next q hq => cases h; exact hq
    · cases h
  · intro h
    obtain ⟨c, rfl, hc⟩ := regOfToken_eq_some h
    have hstart (d : Char) : startsWith ['0', d] [c] = false := by simp [startsWith, List.isPrefixOf]
    have hdec : allDecimal [c] = false := by
      by_contra hd
      have : isDecimalDigit c = true := by simpa [allDecimal] using hd
      simp [regOfChar_of_isDecimalDigit this] at hc
    simp [Operand.ofToken, hstart, hdec, h]

theorem isDecimalDigit_of_startsWith {p t : Text} (hp : startsWith p t = true) (ht : allDecimal t = true) :
    ∀ c ∈ p, isDecimalDigit c = true := by
  simp only [allDecimal, Bool.and_eq_true, List.all_eq_true] at ht
  exact fun c hc => ht.2 c ((List.isPrefixOf_iff_prefix.mp hp).subset hc)

/-- A run of decimal digits begins with neither `0x` nor `0b` (R91, R94). -/
theorem Operand.ofToken_of_allDecimal {d : Text} (h : allDecimal d = true) : Operand.ofToken d = .dec d := by
  have hx : startsWith ['0', 'x'] d = false := Bool.eq_false_iff.mpr fun hp =>
    absurd (isDecimalDigit_of_startsWith hp h 'x' (by simp)) (by decide)
  have hb : startsWith ['0', 'b'] d = false := Bool.eq_false_iff.mpr fun hp =>
    absurd (isDecimalDigit_of_startsWith hp h 'b' (by simp)) (by decide)
  simp [Operand.ofToken, hx, hb, h]

/-- The spelling of a well-formed operand has that operand's class (R91). -/
theorem Operand.ofToken_token {o : Operand} (h : o.wellFormed = true) : Operand.ofToken o.token = o := by
  cases o with
  | hex d => rfl
  | bin d => rfl
  | dec d => exact ofToken_of_allDecimal h
  | reg r => exact ofToken_eq_reg.mpr (by revert r; decide)
  | label n =>
    simp only [Operand.wellFormed, Bool.and_eq_true, beq_iff_eq] at h
    exact h.2

/-! ### The mnemonic of a name -/

/-- The name of a well-formed mnemonic is read as that mnemonic (R6, R76). -/
theorem Mnemonic.ofToken_name {m : Mnemonic} (h : m.wellFormed = true) : Mnemonic.ofToken m.name = m := by
  cases m with
  | extra n =>
    simp only [Mnemonic.wellFormed, Bool.and_eq_true, beq_iff_eq] at h
    obtain ⟨⟨-, hupper⟩, hname⟩ := h
    rw [Mnemonic.name, Mnemonic.ofToken, hupper, hname]
  | _ => decide

/-- A text is the name of the mnemonic it is read as (R6). -/
theorem Mnemonic.name_ofName (t : Text) : (Mnemonic.ofName t).name = t := by
  unfold Mnemonic.ofName
  split_ifs <;> subst_vars <;> rfl

/-- No name of the nine ends in a colon, so a token that does is read as a further mnemonic (R78). -/
theorem Mnemonic.ofName_of_endsInColon {t : Text} (h : endsInColon t = true) : Mnemonic.ofName t = .extra t := by
  have hname := Mnemonic.name_ofName t
  cases hm : Mnemonic.ofName t with
  | extra n => rw [hm] at hname; rw [← hname]; rfl
  | _ =>
    rw [hm] at hname
    rw [← hname] at h
    exact absurd h (by decide)

/-! ### Reading the line written for an instruction -/

theorem decode_eq_ok {raw : Text} {i : Instr} : decode raw = .ok i ↔ readLine raw = .instr i := by
  unfold decode
  cases readLine raw <;> simp

theorem Instr.make_mnemonic_operands (i : Instr) : Instr.make i.mnemonic i.operands = i := by
  cases i <;> rfl

/-- The tokens of a well-formed instruction are read as that instruction (R91, R153). -/
theorem instrOfTokens_tokens {i : Instr} (h : i.wellFormed = true) : instrOfTokens i.tokens = some i := by
  simp only [Instr.wellFormed, Bool.and_eq_true, List.all_eq_true] at h
  obtain ⟨⟨hmn, hops⟩, -⟩ := h
  have hback : (i.operands.map Operand.token).map Operand.ofToken = i.operands := by
    rw [List.map_map]
    exact (List.map_congr_left fun o ho => Operand.ofToken_token (hops o ho)).trans (List.map_id _)
  rw [Instr.tokens, instrOfTokens, Mnemonic.ofToken_name hmn, hback, Instr.make_mnemonic_operands]

/-- The line of a well-formed instruction ends as its last token does, so it declares no label (R153). -/
theorem endsInColon_encode {i : Instr} (h : i.wellFormed = true) : endsInColon (encode i) = false := by
  have hlast : (encode i).getLast? = i.tokens.getLast?.bind List.getLast? :=
    getLast?_spaced fun t ht => (tokens_of_wellFormed h t ht).1
  simp only [Instr.wellFormed, Bool.and_eq_true] at h
  obtain ⟨-, hcolon⟩ := h
  unfold Instr.notLabel at hcolon
  split at hcolon
  · next t ht => rw [endsInColon, hlast, ht]; simpa [endsInColon] using hcolon
  · cases hcolon

theorem readLine_encode {i : Instr} (h : i.wellFormed = true) : readLine (encode i) = .instr i := by
  obtain ⟨hclean, hsplit⟩ := clean_encode h
  rw [readLine, hclean, endsInColon_encode h, hsplit, instrOfTokens_tokens h]
  rfl

/-! ### Names that end in a colon -/

theorem endsInColon_append_colon (n : Text) : endsInColon (n ++ [':']) = true := by
  simp [endsInColon]

theorem extraLookup_eq_none {rows : List ExtraRow} {n : Text} (h : ∀ r ∈ rows, r.name ≠ n) : extraLookup rows n = none := by
  induction rows with
  | nil => rfl
  | cons r rest ih =>
    rw [extraLookup, if_neg (h r List.mem_cons_self), ih fun q hq => h q (List.mem_cons_of_mem r hq)]

theorem upper_append_colon (n : Text) : upper (n ++ [':']) = upper n ++ [':'] := by
  rw [upper, List.map_append]
  rfl

namespace Machine

/-- The rows of `EXTRA` are those admitted, whose names do not end in a colon (R78). -/
theorem lookup_of_endsInColon {n : Text} (h : endsInColon n = true) : tables.lookup (.extra n) = none := by
  refine extraLookup_eq_none fun r hr hn => ?_
  have hadm : r.admissible = true := List.of_mem_filter hr
  simp [ExtraRow.admissible, hn, h] at hadm

/-- A line whose last character is no colon is the instruction of its tokens (R153). -/
theorem readLine_of_split {raw mn : Text} {toks : List Text} (hcolon : endsInColon (clean raw) = false)
    (hsplit : split (clean raw) = mn :: toks) :
    readLine raw = .instr (Instr.make (Mnemonic.ofToken mn) (toks.map Operand.ofToken)) := by
  rw [readLine, hcolon, hsplit]
  rfl

/-- A further mnemonic in no table aborts pass 2, whatever its operands (R160, R181). -/
theorem exec_extra_of_lookup_none {s : State} (hp : s.pass = .emit) (ha : s.outAddr < 256) {mn : Text}
    (h : tables.lookup (.extra mn) = none) (ops : List Operand) :
    exec (.extra mn ops) s = .next (s.abort (.unknownOpcodeError mn)) := by
  have hw : wordExtra tables mn ops s.pc s.lt = .error (.unknownOpcodeError mn) := by rw [wordExtra, h]
  change instrLine s (wordExtra tables mn ops s.pc s.lt) = _
  rw [instrLine, hp, hw]
  exact if_pos ha

theorem abort_of_currentLine {s : State} {raw : Text} (h : s.currentLine = some raw) (e : ErrorInfo) :
    s.abort e = { s with pass := .aborted, report := some ⟨e, s.lineNo, raw⟩ } := by
  rw [State.abort, State.rawLine, h]
  rfl

/-! ### The statements about source lines -/

/-- Settles O2: the line written is clean, splits into the instruction's tokens, and each token is read as what it was written for. -/
theorem decodeOfEncodedLine : Obligations.DecodeOfEncodedLine :=
  fun _ h => decode_eq_ok.mpr (readLine_encode h)

/-- Settles O8: the mnemonic is read upper-cased, and so is a register letter. -/
theorem caseOfMnemonicsAndRegisters : Obligations.CaseOfMnemonicsAndRegisters := by
  refine ⟨fun T mn toks pc lt => ?_, fun t r => ?_⟩
  · rw [encodeTokens, Mnemonic.ofToken_upper, encodeTokens]
  · rw [Operand.ofToken_eq_reg, Operand.ofToken_eq_reg, regOfToken_upper]

/-- Settles O4 by evaluating the decoder on each line. -/
theorem writtenLinesDecode : Obligations.WrittenLinesDecode := by
  refine ⟨?_, ?_, ?_, ?_, ?_, ?_⟩ <;> rfl

/-- Settles O60: the first token is read as a further mnemonic, which no row of `EXTRA` has. -/
theorem labelBeforeInstructionAborts : Obligations.LabelBeforeInstructionAborts := by
  refine ⟨fun n => lookup_of_endsInColon (endsInColon_append_colon n), fun s raw n t toks hp ha hadm hc hsplit hcolon => ?_⟩
  have hend : endsInColon (upper n ++ [':']) = true := endsInColon_append_colon (upper n)
  have hmn : Mnemonic.ofToken (n ++ [':']) = .extra (upper n ++ [':']) := by
    rw [Mnemonic.ofToken, upper_append_colon, Mnemonic.ofName_of_endsInColon hend]
  rw [step_at (.inr hp) hadm hc, readLine_of_split hcolon hsplit, hmn, ← abort_of_currentLine hc]
  exact exec_extra_of_lookup_none hp ha (lookup_of_endsInColon hend) _

end Machine

end Sys2Proof
end

section
/-! PROOFS. The words of spec/30_encoding.md: the fields at the width of their opcode, the pad, the exact formats of R67, and the line that
stands for a table word. -/

namespace Sys2Proof

/-! ### Bit strings of codes -/

/-- Codes side by side are written side by side (R8). -/
theorem bitsOf_append {m n : Nat} (x : BitVec m) (y : BitVec n) : bitsOf (x ++ y) = bitsOf x ++ bitsOf y := by
  refine List.ext_getElem (by simp) fun i h _ => ?_
  have hi : i < m + n := by simpa using h
  simp only [bitsOf, List.getElem_append, List.getElem_map, List.getElem_range, List.length_map, List.length_range,
    BitVec.getMsbD_append]
  by_cases him : i < m
  · rw [if_neg (by omega), dif_pos him]
  · rw [if_pos (by omega), dif_neg him]

theorem bitsOf_append₃ {m n k : Nat} (x : BitVec m) (y : BitVec n) (z : BitVec k) :
    bitsOf (x ++ y ++ z) = bitsOf x ++ bitsOf y ++ bitsOf z := by
  rw [bitsOf_append, bitsOf_append]

theorem bitsOf_append₄ {m n k l : Nat} (x : BitVec m) (y : BitVec n) (z : BitVec k) (u : BitVec l) :
    bitsOf (x ++ y ++ z ++ u) = bitsOf x ++ bitsOf y ++ bitsOf z ++ bitsOf u := by
  rw [bitsOf_append, bitsOf_append₃]

theorem bitsOf_zero (n : Nat) : bitsOf 0#n = zeros n := by
  simp [bitsOf, zeros, List.eq_replicate_iff]

namespace Machine

/-! ### Fields that fit their width -/

theorem valBits_bin (v : Nat) : valBits (bin v) = v := by
  induction v using Nat.strongRecOn with
  | _ v ih =>
    rw [bin_eq]
    split
    · next h => interval_cases v <;> rfl
    · rw [valBits_append, ih (v / 2) (by omega)]
      have : (v % 2 == 1).toNat = v % 2 := by obtain h | h := Nat.mod_two_eq_zero_or_one v <;> simp [h]
      simp only [valBits_cons, valBits_nil, List.length_cons, List.length_nil, this]
      omega

theorem bin_length_le {v w : Nat} (hw : 1 ≤ w) (hv : v < 2 ^ w) : (bin v).length ≤ w := by
  induction w, hw using Nat.le_induction generalizing v with
  | base => rw [bin_eq, if_pos (by simpa using hv)]; rfl
  | succ w hw ih =>
    rw [bin_eq]
    split
    · simp
    · have := ih (v := v / 2) (by rw [Nat.pow_succ] at hv; omega)
      simpa using this

/-- A value that fits the width is rendered as its code at that width (R99). -/
theorem render_eq_bitsOf {v w : Nat} (hw : 1 ≤ w) (hv : v < 2 ^ w) : render v w = bitsOf (BitVec.ofNat w v) := by
  have hlen : (render v w).length = w := by
    have := bin_length_le hw hv
    simp only [render, List.length_append, zeros_length]
    omega
  have hval : valBits (render v w) = v := by simp [render, valBits_append, valBits_bin]
  rw [← bitsOf_ofNat_valBits (render v w), hval, hlen]

theorem registerField_eq (r : Reg) : registerField r = bitsOf (BitVec.ofNat 4 r.val) :=
  render_eq_bitsOf (by decide) r.isLt

/-- A numeric literal is its value at the width asked, under every mnemonic (R92 to R94). -/
theorem encodeOperand_of_literalValue {o : Operand} {v : Nat} (h : literalValue o = some v) (mn : Mnemonic) (w pc : Nat)
    (lt : LabelTable) : encodeOperand mn w pc lt o = .ok (render v w) := by
  cases o with
  | hex d | bin d | dec d => simp only [literalValue] at h; simp [encodeOperand, numberField, h]
  | reg r | label n => cases h

theorem encodeOperand_reg (mn : Mnemonic) (w pc : Nat) (lt : LabelTable) (r : Reg) :
    encodeOperand mn w pc lt (.reg r) = .ok (bitsOf (BitVec.ofNat 4 r.val)) := by
  rw [encodeOperand, registerField_eq]

/-- A label ahead of `pc` is its distance, under every mnemonic in relative mode (R97). -/
theorem encodeOperand_label_ahead {mn : Mnemonic} (hmn : isDirect mn = false) {n : Text} {v pc : Nat} {lt : LabelTable}
    (h : lt.get n = some (pc + v)) (w : Nat) : encodeOperand mn w pc lt (.label n) = .ok (render v w) := by
  have hoff : offsetOf (pc + v) pc = v := by rw [offsetOf, if_neg] <;> omega
  simp [encodeOperand, hmn, relativeField, h, hoff]

/-- A label under `JMP` is its address (R96). -/
theorem encodeOperand_label_direct {n : Text} {v : Nat} {lt : LabelTable} (h : lt.get n = some v) (w pc : Nat) :
    encodeOperand .jmp w pc lt (.label n) = .ok (render v w) := by
  simp [encodeOperand, isDirect, directField, h]

/-! ### The word of a line -/

theorem pad16_eq (s : Bits) : pad16 s = s ++ zeros (16 - s.length) := rfl

theorem pad16_of_length {s : Bits} (h : s.length = 16) : pad16 s = s := by
  simp [pad16_eq, h, zeros]

/-- A line encodes exactly when its count is right and every operand has a field, and its word is then the padded code and fields (R121). -/
theorem encodeInstr_eq_ok {T : Tables} {mn : Mnemonic} {ops : List Operand} {pc : Nat} {lt : LabelTable} {s : Bits} :
    encodeInstr T mn ops pc lt = .ok s ↔ ∃ code fs, T.lookup mn = some (code, ops.length) ∧
      encodeOperands mn (opWidth mn) pc lt ops = .ok fs ∧ s = pad16 (bitsOf code ++ joinFields mn fs) := by
  unfold encodeInstr
  cases hl : T.lookup mn with
  | none => simp
  | some row =>
    obtain ⟨code, n⟩ := row
    by_cases hn : ops.length = n
    · subst hn
      simp [andThen_eq_ok, eq_comm (a := s)]
    · simp [hn, Ne.symm hn]

/-- Each field of a list of operands is its own operand's encoding (R121). -/
theorem encodeOperands_getElem? {mn : Mnemonic} {w pc : Nat} {lt : LabelTable} {ops : List Operand} {fs : List Bits}
    (h : encodeOperands mn w pc lt ops = .ok fs) {k : Nat} {o : Operand} (ho : ops[k]? = some o) :
    ∃ f, fs[k]? = some f ∧ encodeOperand mn w pc lt o = .ok f := by
  induction ops generalizing fs k with
  | nil => cases ho
  | cons p rest ih =>
    rw [encodeOperands_cons] at h
    obtain ⟨f, hf, h⟩ := andThen_eq_ok.mp h
    obtain ⟨gs, hg, h⟩ := andThen_eq_ok.mp h
    cases h
    cases k with
    | zero => cases ho; exact ⟨f, rfl, hf⟩
    | succ k => exact ih hg ho

/-- The mnemonics with the filler have two operands (R127, R128). -/
theorem lookup_of_hasGap {T : Tables} {mn : Mnemonic} {code : BitVec 4} {n : Nat} (hg : hasGap mn = true)
    (h : T.lookup mn = some (code, n)) : n = 2 := by
  cases mn with
  | inc | dec => cases h; rfl
  | _ => cases hg

/-- The body of a word is as long as its fields and the filler together (R64). -/
theorem joinFields_length {mn : Mnemonic} {fs : List Bits} (h : hasGap mn = true → fs.length = 2) :
    (joinFields mn fs).length = (fs.map List.length).sum + if hasGap mn then 4 else 0 := by
  cases hg : hasGap mn with
  | false => simp [joinFields, hg]
  | true =>
    obtain ⟨f, g, rfl⟩ := List.length_eq_two.mp (h hg)
    simp [joinFields, hg]
    omega

theorem hasGap_iff {mn : Mnemonic} : hasGap mn = true ↔ mn = .inc ∨ mn = .dec := by
  cases mn <;> simp [hasGap]

theorem encodeInstr_of_fields {T : Tables} {mn : Mnemonic} {ops : List Operand} {pc : Nat} {lt : LabelTable}
    {code : BitVec 4} {fs : List Bits} (hl : T.lookup mn = some (code, ops.length))
    (hf : encodeOperands mn (opWidth mn) pc lt ops = .ok fs) :
    encodeInstr T mn ops pc lt = .ok (pad16 (bitsOf code ++ joinFields mn fs)) :=
  encodeInstr_eq_ok.mpr ⟨code, fs, hl, hf, rfl⟩

/-! ### The exact formats of R67 -/

/-- Format RI8 (R123). -/
theorem encodeInstr_ldi (T : Tables) (r : Reg) {o : Operand} {v : Nat} (ho : literalValue o = some v) (hv : v < 256)
    (pc : Nat) (lt : LabelTable) : encodeInstr T .ldi [.reg r, o] pc lt =
      .ok (bitsOf 0b0001#4 ++ bitsOf (BitVec.ofNat 4 r.val) ++ bitsOf (BitVec.ofNat 8 v)) := by
  have hf : encodeOperands .ldi 8 pc lt [.reg r, o] = .ok [bitsOf (BitVec.ofNat 4 r.val), bitsOf (BitVec.ofNat 8 v)] := by
    simp [encodeOperands_cons, encodeOperand_reg, encodeOperand_of_literalValue ho, render_eq_bitsOf (w := 8) (by decide) hv]
  rw [encodeInstr_of_fields rfl hf, pad16_of_length] <;> simp [joinFields, hasGap]

/-- Format RRR (R124). -/
theorem encodeInstr_add (T : Tables) (r q p : Reg) (pc : Nat) (lt : LabelTable) :
    encodeInstr T .add [.reg r, .reg q, .reg p] pc lt = .ok (bitsOf T.pAdd ++ bitsOf (BitVec.ofNat 4 r.val) ++
      bitsOf (BitVec.ofNat 4 q.val) ++ bitsOf (BitVec.ofNat 4 p.val)) := by
  have hf : encodeOperands .add 8 pc lt [.reg r, .reg q, .reg p] =
      .ok [bitsOf (BitVec.ofNat 4 r.val), bitsOf (BitVec.ofNat 4 q.val), bitsOf (BitVec.ofNat 4 p.val)] := by
    simp [encodeOperands_cons, encodeOperand_reg]
  rw [encodeInstr_of_fields rfl hf, pad16_of_length] <;> simp [joinFields, hasGap]

/-- Format R0R, under either mnemonic with the filler (R127, R128). -/
theorem encodeInstr_gap {T : Tables} {mn : Mnemonic} {code : BitVec 4} (hg : hasGap mn = true)
    (hl : T.lookup mn = some (code, 2)) (r q : Reg) (pc : Nat) (lt : LabelTable) :
    encodeInstr T mn [.reg r, .reg q] pc lt = .ok (bitsOf code ++ bitsOf (BitVec.ofNat 4 r.val) ++ bitsOf 0#4 ++
      bitsOf (BitVec.ofNat 4 q.val)) := by
  have hf : encodeOperands mn (opWidth mn) pc lt [.reg r, .reg q] =
      .ok [bitsOf (BitVec.ofNat 4 r.val), bitsOf (BitVec.ofNat 4 q.val)] := by
    simp [encodeOperands_cons, encodeOperand_reg]
  rw [encodeInstr_of_fields hl hf, pad16_of_length] <;> simp [joinFields, hg, bitsOf_zero]

/-- Format RRN4, under either narrow mnemonic where its open count is 3 (R125, R126). -/
theorem encodeInstr_narrow {T : Tables} {mn : Mnemonic} {code : BitVec 4} (hw : opWidth mn = 4)
    (hl : T.lookup mn = some (code, 3)) (r q : Reg) {o : Operand} {v pc : Nat} {lt : LabelTable} (hv : v < 16)
    (ho : encodeOperand mn 4 pc lt o = .ok (render v 4)) :
    encodeInstr T mn [.reg r, .reg q, o] pc lt = .ok (bitsOf code ++ bitsOf (BitVec.ofNat 4 r.val) ++
      bitsOf (BitVec.ofNat 4 q.val) ++ bitsOf (BitVec.ofNat 4 v)) := by
  have hg : hasGap mn = false := by
    cases mn with
    | adi | cmpj => rfl
    | _ => cases hw
  have hf : encodeOperands mn (opWidth mn) pc lt [.reg r, .reg q, o] =
      .ok [bitsOf (BitVec.ofNat 4 r.val), bitsOf (BitVec.ofNat 4 q.val), bitsOf (BitVec.ofNat 4 v)] := by
    simp [hw, encodeOperands_cons, encodeOperand_reg, ho, render_eq_bitsOf (w := 4) (by decide) hv]
  rw [encodeInstr_of_fields hl hf, pad16_of_length] <;> simp [joinFields, hg]

theorem encodeInstr_jmp (T : Tables) {o : Operand} {f : Bits} {pc : Nat} {lt : LabelTable}
    (ho : encodeOperand .jmp 8 pc lt o = .ok f) : encodeInstr T .jmp [o] pc lt = .ok (pad16 (bitsOf T.pJmp ++ f)) := by
  have hf : encodeOperands .jmp 8 pc lt [o] = .ok [f] := by simp [encodeOperands_cons, ho]
  rw [encodeInstr_of_fields rfl hf]
  simp [joinFields, hasGap]

/-- Format L8 (R129). -/
theorem encodeInstr_jmp_address (T : Tables) {o : Operand} {v pc : Nat} {lt : LabelTable} (hv : v < 256)
    (ho : encodeOperand .jmp 8 pc lt o = .ok (render v 8)) :
    encodeInstr T .jmp [o] pc lt = .ok (bitsOf T.pJmp ++ bitsOf (BitVec.ofNat 8 v) ++ bitsOf 0#4) := by
  rw [encodeInstr_jmp T ho, render_eq_bitsOf (by decide) hv]
  simp [pad16_eq, bitsOf_zero]

/-! ### The statements about words -/

/-- Settles O17: a word is made of its operands' encodings at the width of its mnemonic. -/
theorem operandWidthOfMnemonic : Obligations.OperandWidthOfMnemonic := by
  intro T mn ops pc lt
  refine ⟨by cases mn <;> rfl, fun s hs => ?_⟩
  obtain ⟨code, fs, hl, hf, rfl⟩ := encodeInstr_eq_ok.mp hs
  exact ⟨code, fs, hl, encodeOperands_length hf, fun k o ho => encodeOperands_getElem? hf ho, rfl⟩

/-- Settles O19: the body is as long as its fields and filler together, and the filler stands beside two fields only. -/
theorem padFillsTheWord : Obligations.PadFillsTheWord := by
  intro T mn ops pc lt code n fs s hl hf hs
  obtain ⟨code', fs', hl', hf', rfl⟩ := encodeInstr_eq_ok.mp hs
  obtain ⟨rfl, rfl⟩ : code = code' ∧ n = ops.length := by simpa [hl] using hl'
  obtain rfl : fs = fs' := by simpa [hf] using hf'
  have hbody := joinFields_length (mn := mn) (fs := fs) fun hg => (encodeOperands_length hf).trans (lookup_of_hasGap hg hl)
  simp only [hasGap_iff] at hbody
  rw [pad16_eq, List.length_append, bitsOf_length, hbody, Nat.sub_sub]

/-- Settles O29, one format each. -/
theorem registerFormats : Obligations.RegisterFormats := by
  intro T r q p pc lt
  refine ⟨fun o v ho hv => ?_, ?_, ?_, ?_⟩
  · rw [bitsOf_append₃, encodeInstr_ldi T r ho hv]
  · rw [bitsOf_append₄, encodeInstr_add]
  · rw [bitsOf_append₄, encodeInstr_gap rfl rfl]
  · rw [bitsOf_append₄, encodeInstr_gap rfl rfl]

/-- Settles O30: under either mnemonic the literal and the label ahead are one field. -/
theorem narrowFormatRRN4 : Obligations.NarrowFormatRRN4 := by
  intro T r q o v pc lt hv ho
  have hfield (mn : Mnemonic) (hmn : isDirect mn = false) : encodeOperand mn 4 pc lt o = .ok (render v 4) := by
    obtain ho | ⟨n, rfl, ho⟩ := ho
    · exact encodeOperand_of_literalValue ho mn 4 pc lt
    · exact encodeOperand_label_ahead hmn ho 4
  rw [bitsOf_append₄, bitsOf_append₄]
  exact ⟨fun h3 => encodeInstr_narrow rfl (by rw [Tables.lookup, h3]) r q hv (hfield .adi rfl),
    fun h3 => encodeInstr_narrow rfl (by rw [Tables.lookup, h3]) r q hv (hfield .cmpj rfl)⟩

/-- Settles O31: the literal and the label's address are one field. -/
theorem jmpFormatL8 : Obligations.JmpFormatL8 := by
  intro T o v pc lt r
  rw [bitsOf_append₃, bitsOf_append₃]
  refine ⟨fun hv ho => encodeInstr_jmp_address T hv ?_, ?_⟩
  · obtain ho | ⟨n, rfl, ho⟩ := ho
    · exact encodeOperand_of_literalValue ho .jmp 8 pc lt
    · exact encodeOperand_label_direct ho 8 pc
  · rw [encodeInstr_jmp T (encodeOperand_reg .jmp 8 pc lt r)]
    simp [pad16_eq, bitsOf_zero]

end Machine

/-! ### The line that stands for a table word -/

/-- An operand with a spelling of its own class that does not end in a colon. -/
def Operand.plain (o : Operand) : Prop := o.wellFormed = true ∧ endsInColon o.token = false

/-- A mnemonic whose name is a token of its own that does not end in a colon. -/
def Mnemonic.plain (mn : Mnemonic) : Prop := mn.wellFormed = true ∧ endsInColon mn.name = false

theorem Instr.mnemonic_make (mn : Mnemonic) (ops : List Operand) : (Instr.make mn ops).mnemonic = mn := by
  cases mn <;> rfl

theorem Instr.operands_make (mn : Mnemonic) (ops : List Operand) : (Instr.make mn ops).operands = ops := by
  cases mn <;> rfl

/-- A plain mnemonic with plain operands is an instruction some line stands for (R153). -/
theorem Instr.wellFormed_make {mn : Mnemonic} {ops : List Operand} (hmn : mn.plain) (hops : ∀ o ∈ ops, o.plain) :
    (Instr.make mn ops).wellFormed = true := by
  have hlast : ∀ t ∈ (Instr.make mn ops).tokens, endsInColon t = false := by
    simpa [Instr.tokens, Instr.mnemonic_make, Instr.operands_make, hmn.2] using fun o ho => (hops o ho).2
  have hnot : (Instr.make mn ops).notLabel = true := by
    cases h : (Instr.make mn ops).tokens.getLast? with
    | none => simp [Instr.tokens] at h
    | some t => simp [Instr.notLabel, h, hlast t (List.mem_of_getLast? h)]
  simpa [Instr.wellFormed, Instr.mnemonic_make, Instr.operands_make, hmn.1, hnot] using fun o ho => (hops o ho).1

theorem Operand.plain_reg (r : Reg) : (Operand.reg r).plain :=
  ⟨rfl, by revert r; decide⟩

theorem hexDigit_isTokenChar (v : BitVec 4) : isTokenChar (hexDigit v) = true := by
  revert v; decide

theorem hexDigit_ne_colon (v : BitVec 4) : hexDigit v ≠ ':' := by
  revert v; decide

theorem digitOf_hexDigit (v : BitVec 4) : digitOf 16 (hexDigit v) = some v.toNat := by
  revert v; decide

theorem Operand.plain_hex (ds : List (BitVec 4)) (c : BitVec 4) : (Operand.hex (ds.map hexDigit ++ [hexDigit c])).plain := by
  refine ⟨by simp [Operand.wellFormed, hexDigit_isTokenChar], ?_⟩
  rw [Operand.token, endsInColon, ← List.cons_append, ← List.cons_append, List.getLast?_concat]
  simpa using hexDigit_ne_colon c

/-- A field as a register index is the field (R95). -/
theorem ofNat_toFin (a : BitVec 4) : BitVec.ofNat 4 a.toFin.val = a := by
  simp

/-- The code of two hexadecimal digits is the digits side by side (R92). -/
theorem bitsOf_two_digits (a b : BitVec 4) : bitsOf (BitVec.ofNat 8 (16 * a.toNat + b.toNat)) = bitsOf a ++ bitsOf b := by
  rw [← bitsOf_append]
  congr 1
  refine BitVec.eq_of_toNat_eq ?_
  rw [BitVec.toNat_append, ← Nat.shiftLeft_add_eq_or_of_lt b.isLt, Nat.shiftLeft_eq]
  simp
  omega

/-- A word is its four fields, the leftmost first (R60). -/
theorem bitsOf_word (w : BitVec 16) : bitsOf w = bitsOf (w.extractLsb' 12 4) ++ bitsOf (w.extractLsb' 8 4) ++
    bitsOf (w.extractLsb' 4 4) ++ bitsOf (w.extractLsb' 0 4) := by
  rw [← bitsOf_append₄, BitVec.extractLsb'_append_extractLsb'_eq_extractLsb' (show 12 = 8 + 4 from rfl),
    BitVec.extractLsb'_append_extractLsb'_eq_extractLsb' (show 8 = 4 + 4 from rfl),
    BitVec.extractLsb'_append_extractLsb'_eq_extractLsb' (show 4 = 0 + 4 from rfl)]
  exact congrArg bitsOf BitVec.extractLsb'_eq_self.symm

namespace Machine

theorem literalValue_one_digit (a : BitVec 4) : literalValue (.hex [hexDigit a]) = some a.toNat := by
  simp [literalValue, parseBase, parseDigits, digitOf_hexDigit]

theorem literalValue_two_digits (a b : BitVec 4) :
    literalValue (.hex [hexDigit a, hexDigit b]) = some (16 * a.toNat + b.toNat) := by
  simp [literalValue, parseBase, parseDigits, digitOf_hexDigit]

/-- The line is written for a well-formed instruction that encodes to `s` wherever it stands. -/
def lineAssembles (T : Tables) (line : Text) (s : Bits) : Prop :=
  ∃ i : Instr, i.wellFormed = true ∧ line = encode i ∧
    ∀ (pc : Nat) (lt : LabelTable), encodeInstr T i.mnemonic i.operands pc lt = .ok s

theorem lineAssembles_of_plain {T : Tables} {mn : Mnemonic} {ops : List Operand} {s : Bits} (hmn : mn.plain)
    (hops : ∀ o ∈ ops, o.plain) (h : ∀ (pc : Nat) (lt : LabelTable), encodeInstr T mn ops pc lt = .ok s) :
    lineAssembles T (lineOf mn (ops.map Operand.token)) s := by
  refine ⟨Instr.make mn ops, Instr.wellFormed_make hmn hops, ?_, ?_⟩
  · rw [encode, Instr.mnemonic_make, Instr.operands_make, lineOf]
  · rwa [Instr.mnemonic_make, Instr.operands_make]

theorem lineAssembles_ldi (T : Tables) (a b c : BitVec 4) :
    lineAssembles T (lineOf .ldi [regToken a, ['0', 'x', hexDigit b, hexDigit c]])
      (bitsOf 0b0001#4 ++ bitsOf a ++ bitsOf b ++ bitsOf c) := by
  refine lineAssembles_of_plain (ops := [.reg a.toFin, .hex [hexDigit b, hexDigit c]]) ⟨rfl, rfl⟩ ?_ fun pc lt => ?_
  · simpa [Operand.plain_reg] using Operand.plain_hex [b] c
  · rw [encodeInstr_ldi T _ (literalValue_two_digits b c) (by omega), ofNat_toFin, bitsOf_two_digits, List.append_assoc _ (bitsOf b)]

theorem lineAssembles_add (T : Tables) (a b c : BitVec 4) :
    lineAssembles T (lineOf .add [regToken a, regToken b, regToken c]) (bitsOf T.pAdd ++ bitsOf a ++ bitsOf b ++ bitsOf c) := by
  refine lineAssembles_of_plain (ops := [.reg a.toFin, .reg b.toFin, .reg c.toFin]) ⟨rfl, rfl⟩ ?_ fun pc lt => ?_
  · simp [Operand.plain_reg]
  · rw [encodeInstr_add, ofNat_toFin, ofNat_toFin, ofNat_toFin]

theorem lineAssembles_narrow {T : Tables} {mn : Mnemonic} {code : BitVec 4} (hmn : mn.plain) (hw : opWidth mn = 4)
    (hl : T.lookup mn = some (code, 3)) (a b c : BitVec 4) :
    lineAssembles T (lineOf mn [regToken a, regToken b, ['0', 'x', hexDigit c]])
      (bitsOf code ++ bitsOf a ++ bitsOf b ++ bitsOf c) := by
  refine lineAssembles_of_plain (ops := [.reg a.toFin, .reg b.toFin, .hex [hexDigit c]]) hmn ?_ fun pc lt => ?_
  · simpa [Operand.plain_reg] using Operand.plain_hex [] c
  · have hc := encodeOperand_of_literalValue (literalValue_one_digit c) mn 4 pc lt
    rw [encodeInstr_narrow hw hl _ _ c.isLt hc, ofNat_toFin, ofNat_toFin, BitVec.ofNat_toNat, BitVec.setWidth_eq]

theorem lineAssembles_gap {T : Tables} {mn : Mnemonic} {code : BitVec 4} (hmn : mn.plain) (hg : hasGap mn = true)
    (hl : T.lookup mn = some (code, 2)) (a c : BitVec 4) :
    lineAssembles T (lineOf mn [regToken a, regToken c]) (bitsOf code ++ bitsOf a ++ bitsOf 0#4 ++ bitsOf c) := by
  refine lineAssembles_of_plain (ops := [.reg a.toFin, .reg c.toFin]) hmn ?_ fun pc lt => ?_
  · simp [Operand.plain_reg]
  · rw [encodeInstr_gap hg hl, ofNat_toFin, ofNat_toFin]

theorem lineAssembles_jmp (T : Tables) (a b : BitVec 4) :
    lineAssembles T (lineOf .jmp [['0', 'x', hexDigit a, hexDigit b]]) (bitsOf T.pJmp ++ bitsOf a ++ bitsOf b ++ bitsOf 0#4) := by
  refine lineAssembles_of_plain (ops := [.hex [hexDigit a, hexDigit b]]) ⟨rfl, rfl⟩ ?_ fun pc lt => ?_
  · simpa using Operand.plain_hex [a] b
  · have hab := encodeOperand_of_literalValue (literalValue_two_digits a b) .jmp 8 pc lt
    rw [encodeInstr_jmp_address T (by omega) hab, bitsOf_two_digits, ← List.append_assoc]

/-- The line `tableLine` picks for a word assembles to that word, format by format (R67). -/
theorem lineAssembles_of_tableLine {T : Tables} {w : BitVec 16} {line : Text} (h : tableLine T w = some line) :
    lineAssembles T line (bitsOf w) := by
  have hw := bitsOf_word w
  unfold tableLine at h
  dsimp only at h
  generalize w.extractLsb' 12 4 = op at h hw
  generalize w.extractLsb' 8 4 = a at h hw
  generalize w.extractLsb' 4 4 = b at h hw
  generalize w.extractLsb' 0 4 = c at h hw
  split_ifs at h with h0 hF hldi hadd hadi hcmpj hdec hinc hjmp <;> obtain rfl := Option.some.inj h
  · exact h0 ▸ lineAssembles_of_plain (ops := []) ⟨rfl, rfl⟩ (by simp) fun pc lt => rfl
  · exact hF ▸ lineAssembles_of_plain (ops := []) ⟨rfl, rfl⟩ (by simp) fun pc lt => rfl
  · rw [hw, hldi]
    exact lineAssembles_ldi T a b c
  · rw [hw, hadd]
    exact lineAssembles_add T a b c
  · rw [hw, hadi.1]
    exact lineAssembles_narrow ⟨rfl, rfl⟩ rfl (by rw [Tables.lookup, hadi.2]) a b c
  · rw [hw, hcmpj.1]
    exact lineAssembles_narrow ⟨rfl, rfl⟩ rfl (by rw [Tables.lookup, hcmpj.2]) a b c
  · rw [hw, hdec.1, hdec.2]
    exact lineAssembles_gap ⟨rfl, rfl⟩ rfl rfl a c
  · rw [hw, hinc.1, hinc.2]
    exact lineAssembles_gap ⟨rfl, rfl⟩ rfl rfl a c
  · rw [hw, hjmp.1, hjmp.2]
    exact lineAssembles_jmp T a b

/-! ### The host's table words -/

theorem decodeTableWord_eq_some {nbits w : Nat} {i : Instr} (h : decodeTableWord nbits w = some i) :
    ∃ line, tableWordLine nbits w = some line ∧ readLine line = .instr i := by
  unfold decodeTableWord at h
  split at h
  · cases h
  · next line hline =>
    split at h
    · next j hj => cases h; exact ⟨line, hline, decode_eq_ok.mp hj⟩
    · cases h

theorem tableWordLine_eq_some {nbits w : Nat} {line : Text} (h : tableWordLine nbits w = some line) :
    tableLine tables (BitVec.ofNat 16 w) = some line := by
  unfold tableWordLine at h
  split at h
  · exact h
  · cases h

/-- A source of one instruction line has a run (R52, R153). -/
theorem admitted_of_instr {raw : Text} {i : Instr} (h : readLine raw = .instr i) : admitted [raw] := by
  constructor <;> simp [instrCount, instrs, declared, h]

/-- The host's fetch places the line where the next step runs it. -/
theorem step_withFetchWord {nbits w : Nat} {line : Text} {i : Instr} (hline : tableWordLine nbits w = some line)
    (hread : readLine line = .instr i) (s : State) : step (s.withFetchWord nbits w) = exec i (s.withFetchWord nbits w) := by
  have hfetch : s.withFetchWord nbits w = { s with src := [line], lineNo := 1, pass := .emit } := by
    rw [State.withFetchWord, hline]
  rw [hfetch, step_at (.inr rfl) (admitted_of_instr hread) rfl, hread]

/-- Settles O36: the line is written for an instruction that assembles to the word, and is read as that instruction. -/
theorem tableWordLinesAssemble : Obligations.TableWordLinesAssemble := by
  intro w i h
  obtain ⟨line, hline, hread⟩ := decodeTableWord_eq_some h
  refine ⟨?_, step_withFetchWord hline hread⟩
  obtain ⟨j, hj, rfl, hword⟩ := lineAssembles_of_tableLine (tableWordLine_eq_some hline)
  obtain rfl : j = i := by simpa [readLine_encode hj] using hread
  exact hword

end Machine

end Sys2Proof
end

section
/-! PROOFS. The Operand Encoder of spec/40_operand_encoder.md: the classes of R91, the literals of R92 to R94, the labels of R96 to R98, the
render rule of R99, and what the encoder can answer (R100). -/

namespace Sys2Proof

/-! ### Runs of consecutive characters -/

/-- The `n` characters from code `a` on, which the letters and the digits of R9 and R29 are. -/
def charRun (a n : Nat) : List Char := (List.range n).map fun k => Char.ofNat (a + k)

/-- Below the surrogates every number is a character's code. -/
theorem toNat_ofNat_of_lt {k : Nat} (h : k < 0xd800) : (Char.ofNat k).toNat = k := by
  rw [Char.toNat_ofNat, if_pos (.inl h)]

theorem ofNat_eq_iff {k : Nat} (h : k < 0xd800) {c : Char} : Char.ofNat k = c ↔ c.toNat = k := by
  constructor
  · rintro rfl
    exact toNat_ofNat_of_lt h
  · rintro rfl
    exact Char.ofNat_toNat c

/-- A character stands in a run where its code says. -/
theorem getElem?_charRun {a n : Nat} (h : a + n ≤ 0xd800) {k : Nat} {c : Char} :
    (charRun a n)[k]? = some c ↔ k < n ∧ c.toNat = a + k := by
  by_cases hk : k < n
  · simp [charRun, hk, ofNat_eq_iff (show a + k < 0xd800 by omega)]
  · simp [charRun, hk]

theorem mem_charRun {a n : Nat} (h : a + n ≤ 0xd800) {c : Char} :
    c ∈ charRun a n ↔ a ≤ c.toNat ∧ c.toNat < a + n := by
  simp only [List.mem_iff_getElem?, getElem?_charRun h]
  constructor
  · rintro ⟨k, hk, hc⟩
    omega
  · rintro ⟨hlow, hhigh⟩
    exact ⟨c.toNat - a, by omega, by omega⟩

/-- The characters of `isDecimalDigit`, in the order of their values (R9). -/
abbrev decimalDigits : List Char := ['0', '1', '2', '3', '4', '5', '6', '7', '8', '9']

/-- The hexadecimal digits in lower case, in the order of their values (R9). -/
abbrev lowerHexDigits : List Char := ['0', '1', '2', '3', '4', '5', '6', '7', '8', '9', 'a', 'b', 'c', 'd', 'e', 'f']

/-- The hexadecimal digits in upper case, in the order of their values (R9). -/
abbrev upperHexDigits : List Char := ['0', '1', '2', '3', '4', '5', '6', '7', '8', '9', 'A', 'B', 'C', 'D', 'E', 'F']

/-- The register letters, in the order of their indices (R29). -/
abbrev registerLetters : List Char := ['A', 'B', 'C', 'D', 'E', 'F', 'G', 'H', 'I', 'J', 'K', 'L', 'M', 'N', 'O', 'P']

theorem isDecimalDigit_iff {c : Char} : isDecimalDigit c = true ↔ c ∈ decimalDigits := by
  rw [show decimalDigits = charRun 48 10 from rfl, mem_charRun (by decide)]
  simp only [isDecimalDigit, Bool.and_eq_true, decide_eq_true_eq]
  omega

theorem allDecimal_iff {d : Text} : allDecimal d = true ↔ d ≠ [] ∧ ∀ c ∈ d, c ∈ decimalDigits := by
  simp only [← isDecimalDigit_iff]
  simp [allDecimal]

/-- The register of a letter is the letter's position, in either case (R95). -/
theorem regOfChar_eq_some {c : Char} {r : Reg} : regOfChar c = some r ↔ registerLetters[r.val]? = some (upperChar c) := by
  rw [show registerLetters = charRun 65 16 from rfl, getElem?_charRun (by decide), regOfChar]
  have hr := r.isLt
  split_ifs with h
  · rw [Option.some.injEq, Fin.ext_iff]
    dsimp only
    omega
  · simp only [false_iff]
    omega

/-! ### The class of a token, exactly -/

theorem eq_append_of_startsWith {p t : Text} (h : startsWith p t = true) : t = p ++ t.drop p.length :=
  List.prefix_iff_eq_append.mp (List.isPrefixOf_iff_prefix.mp h) |>.symm

/-- But for registers, whose letter case is not kept, a token is the spelling of its class (R91). -/
theorem Operand.token_of_ofToken {t : Text} {o : Operand} (h : Operand.ofToken t = o) (hreg : ∀ r, o ≠ .reg r) :
    o.token = t := by
  subst h
  cases hr : regOfToken t with
  | some r => exact absurd (ofToken_eq_reg.mpr hr) (hreg r)
  | none =>
    unfold Operand.ofToken
    split_ifs with hx hb hd
    · exact (eq_append_of_startsWith hx).symm
    · exact (eq_append_of_startsWith hb).symm
    · rfl
    · rw [hr]
      rfl

theorem Operand.ofToken_eq_hex {t d : Text} : Operand.ofToken t = .hex d ↔ t = '0' :: 'x' :: d := by
  constructor
  · intro h
    exact (token_of_ofToken h (by simp)).symm
  · rintro rfl
    rfl

theorem Operand.ofToken_eq_bin {t d : Text} : Operand.ofToken t = .bin d ↔ t = '0' :: 'b' :: d := by
  constructor
  · intro h
    exact (token_of_ofToken h (by simp)).symm
  · rintro rfl
    rfl

theorem Operand.ofToken_eq_dec {t d : Text} : Operand.ofToken t = .dec d ↔ t = d ∧ allDecimal d = true := by
  constructor
  · intro h
    unfold Operand.ofToken at h
    split_ifs at h with hx hb hd
    · cases h
      exact ⟨rfl, hd⟩
    · split at h <;> cases h
  · rintro ⟨rfl, h⟩
    exact ofToken_of_allDecimal h

theorem Operand.ofToken_eq_reg_iff_letter {t : Text} {r : Reg} : Operand.ofToken t = .reg r ↔
    ∃ c, t = [c] ∧ registerLetters[r.val]? = some (upperChar c) := by
  simp only [ofToken_eq_reg, ← regOfChar_eq_some]
  constructor
  · exact regOfToken_eq_some
  · rintro ⟨c, rfl, h⟩
    exact h

/-- A token whose upper case is one of the letters is in the register class. -/
theorem Operand.exists_ofToken_eq_reg {t : Text} : (∃ r, Operand.ofToken t = .reg r) ↔
    ∃ c, t = [c] ∧ upperChar c ∈ registerLetters := by
  simp only [ofToken_eq_reg_iff_letter, List.mem_iff_getElem?]
  constructor
  · rintro ⟨r, c, ht, hc⟩
    exact ⟨c, ht, r.val, hc⟩
  · rintro ⟨c, ht, k, hc⟩
    exact ⟨⟨k, (List.getElem?_eq_some_iff.mp hc).1⟩, c, ht, hc⟩

/-- The label class is what the four tests before it leave (R91). -/
theorem Operand.ofToken_eq_label {t n : Text} : Operand.ofToken t = .label n ↔ t = n ∧
    (∀ d, Operand.ofToken t ≠ .hex d) ∧ (∀ d, Operand.ofToken t ≠ .bin d) ∧ (∀ d, Operand.ofToken t ≠ .dec d) ∧
      ∀ r, Operand.ofToken t ≠ .reg r := by
  constructor
  · intro h
    exact ⟨(token_of_ofToken h (by simp)).symm, by simp [h]⟩
  · rintro ⟨rfl, hhex, hbin, hdec, hreg⟩
    cases h : Operand.ofToken t with
    | hex d => exact absurd h (hhex d)
    | bin d => exact absurd h (hbin d)
    | dec d => exact absurd h (hdec d)
    | reg r => exact absurd h (hreg r)
    | label m => rw [← token_of_ofToken h (by simp)]; rfl

/-! ### Digits and numbers -/

/-- The value of a hexadecimal digit is its position among the digits, in either case (R9). -/
theorem digitValue_eq_some {c : Char} {k : Nat} : digitValue c = some k ↔
    lowerHexDigits[k]? = some c ∨ upperHexDigits[k]? = some c := by
  rw [show lowerHexDigits = charRun 48 10 ++ charRun 97 6 from rfl,
    show upperHexDigits = charRun 48 10 ++ charRun 65 6 from rfl,
    List.getElem?_append, List.getElem?_append, show (charRun 48 10).length = 10 from rfl]
  by_cases hk : k < 10
  · simp only [hk, if_true, or_self, getElem?_charRun (show 48 + 10 ≤ 0xd800 by decide), digitValue]
    split_ifs <;> simp <;> omega
  · simp only [hk, if_false, getElem?_charRun (show 97 + 6 ≤ 0xd800 by decide),
      getElem?_charRun (show 65 + 6 ≤ 0xd800 by decide), digitValue]
    split_ifs <;> simp <;> omega

theorem digitOf_eq_some {b : Nat} {c : Char} {k : Nat} : digitOf b c = some k ↔ k < b ∧ digitValue c = some k := by
  unfold digitOf
  cases digitValue c with
  | none => simp
  | some d =>
    simp only [Option.ite_none_right_eq_some, Option.some.injEq]
    exact and_congr_left (by rintro rfl; rfl)

theorem digitOf_ten_isSome {c : Char} (h : isDecimalDigit c = true) : (digitOf 10 c).isSome = true := by
  simp only [isDecimalDigit, Bool.and_eq_true, decide_eq_true_eq] at h
  have hv : digitValue c = some (c.toNat - 48) := if_pos h
  rw [digitOf_eq_some.mpr ⟨by omega, hv⟩]
  rfl

/-- The digits of a text are folded in from the left, and one that is no digit fails the whole (R9). -/
theorem parseDigits_eq (b : Nat) (d : Text) (acc : Nat) : parseDigits b d acc =
    if ∀ c ∈ d, (digitOf b c).isSome = true then some (d.foldl (fun v c => b * v + (digitOf b c).getD 0) acc) else none := by
  induction d generalizing acc with
  | nil => simp [parseDigits]
  | cons c cs ih =>
    rw [parseDigits]
    cases h : digitOf b c with
    | none => simp [h]
    | some k => simp [h, ih]

theorem parseBase_eq (b : Nat) (d : Text) : parseBase b d =
    if d ≠ [] ∧ ∀ c ∈ d, (digitOf b c).isSome = true
      then some (d.foldl (fun v c => b * v + (digitOf b c).getD 0) 0) else none := by
  cases d with
  | nil => rfl
  | cons c cs => rw [parseBase, parseDigits_eq]; simp

/-- A run of decimal digits always denotes a number (R94). -/
theorem exists_parseBase_ten {d : Text} (h : allDecimal d = true) : ∃ v, parseBase 10 d = some v := by
  obtain ⟨hne, hall⟩ := allDecimal_iff.mp h
  exact ⟨_, by rw [parseBase_eq, if_pos ⟨hne, fun c hc => digitOf_ten_isSome (isDecimalDigit_iff.mpr (hall c hc))⟩]⟩

namespace Machine

/-! ### Rendered values -/

@[simp] theorem valBits_render (v w : Nat) : valBits (render v w) = v := by
  rw [render, valBits_append, valBits_zeros, valBits_bin, Nat.zero_mul, Nat.zero_add]

/-- The padding only ever adds to the digits (R99). -/
theorem render_length (v w : Nat) : (render v w).length = max w (bin v).length := by
  rw [render, List.length_append, zeros_length]
  omega

/-- No bit string of a value is shorter than `bin` of it (R9). -/
theorem bin_length_le_of_valBits {s : Bits} (hs : s ≠ []) : (bin (valBits s)).length ≤ s.length :=
  bin_length_le (List.length_pos_iff.mpr hs) (valBits_lt s)

theorem bin_length_le_iff {v w : Nat} (hw : 1 ≤ w) : (bin v).length ≤ w ↔ v < 2 ^ w := by
  refine ⟨fun h => ?_, bin_length_le hw⟩
  calc v = valBits (bin v) := (valBits_bin v).symm
    _ < 2 ^ (bin v).length := valBits_lt _
    _ ≤ 2 ^ w := Nat.pow_le_pow_right (by decide) h

/-! ### Fields of labels -/

theorem isDirect_iff {mn : Mnemonic} : isDirect mn = true ↔ mn = .jmp := by
  cases mn <;> simp [isDirect]

theorem isDirect_of_ne_jmp {mn : Mnemonic} (h : mn ≠ .jmp) : isDirect mn = false :=
  Bool.eq_false_iff.mpr (mt isDirect_iff.mp h)

/-- A name with no entry is the same error in either mode (R98). -/
theorem encodeOperand_label_undeclared {n : Text} {lt : LabelTable} (h : lt.has n = false) (mn : Mnemonic) (w pc : Nat) :
    encodeOperand mn w pc lt (.label n) = .error (.labelError n) := by
  have hget : lt.get n = none := Option.isSome_eq_false_iff.mp h |> Option.isNone_iff_eq_none.mp
  cases hd : isDirect mn <;> simp [encodeOperand, hd, directField, relativeField, hget]

theorem encodeOperand_label_behind {mn : Mnemonic} (hmn : isDirect mn = false) {n : Text} {l pc : Nat} {lt : LabelTable}
    (h : lt.get n = some l) (hl : l < pc) (w : Nat) : encodeOperand mn w pc lt (.label n) = .error (.negativeJumpError n) := by
  simp [encodeOperand, hmn, relativeField, h, hl]

/-! ### What the encoder answers -/

theorem numberField_eq_ok {b w : Nat} {token d : Text} {f : Bits} (h : numberField b token d w = .ok f) :
    ∃ v, f = render v w := by
  unfold numberField at h
  split at h <;> cases h
  exact ⟨_, rfl⟩

theorem directField_eq_ok {n : Text} {w : Nat} {lt : LabelTable} {f : Bits} (h : directField n w lt = .ok f) :
    ∃ v, f = render v w := by
  unfold directField at h
  split at h <;> cases h
  exact ⟨_, rfl⟩

theorem relativeField_eq_ok {n : Text} {w pc : Nat} {lt : LabelTable} {f : Bits} (h : relativeField n w pc lt = .ok f) :
    ∃ v, f = render v w := by
  unfold relativeField at h
  split at h
  · split at h <;> cases h
    exact ⟨_, rfl⟩
  · cases h

/-- A field is a number rendered at the width asked, or a register's four bits (R92 to R97). -/
theorem encodeOperand_eq_ok {mn : Mnemonic} {w pc : Nat} {lt : LabelTable} {o : Operand} {f : Bits}
    (h : encodeOperand mn w pc lt o = .ok f) : (∃ v, f = render v w) ∨ ∃ r, o = .reg r ∧ f = registerField r := by
  cases o with
  | hex d => exact .inl (numberField_eq_ok h)
  | bin d => exact .inl (numberField_eq_ok h)
  | dec d => exact .inl (numberField_eq_ok h)
  | reg r => cases h; exact .inr ⟨r, rfl, rfl⟩
  | label n =>
    cases hd : isDirect mn <;> simp only [encodeOperand, hd] at h
    · exact .inl (relativeField_eq_ok h)
    · exact .inl (directField_eq_ok h)

theorem registerField_length (r : Reg) : (registerField r).length = 4 := by
  rw [registerField_eq, bitsOf_length]

/-- No field is shorter than 4 bits, since both widths of R63 are at least 4. -/
theorem four_le_length_of_encodeOperand {mn : Mnemonic} {w pc : Nat} {lt : LabelTable} {o : Operand} {f : Bits}
    (hw : 4 ≤ w) (h : encodeOperand mn w pc lt o = .ok f) : 4 ≤ f.length := by
  obtain ⟨v, rfl⟩ | ⟨r, -, rfl⟩ := encodeOperand_eq_ok h
  · rw [render_length]
    omega
  · exact (registerField_length r).ge

/-- An error names the token, whatever its class: a register has none (R100). -/
theorem token_of_encodeOperand_error {mn : Mnemonic} {w pc : Nat} {lt : LabelTable} {t : Text} {e : ErrorInfo}
    (h : encodeOperand mn w pc lt (Operand.ofToken t) = .error e) : (Operand.ofToken t).token = t := by
  refine Operand.token_of_ofToken rfl fun r hr => ?_
  rw [hr] at h
  cases h

/-! ### What a field depends on -/

/-- Only a label's field reads `pc` and the Label Table (R100). -/
theorem encodeOperand_of_not_label {o : Operand} (h : ∀ n, o ≠ .label n) (mn : Mnemonic) (w pc pc' : Nat)
    (lt lt' : LabelTable) : encodeOperand mn w pc lt o = encodeOperand mn w pc' lt' o := by
  cases o with
  | label n => exact absurd rfl (h n)
  | _ => rfl

/-- Under `JMP` no field reads `pc` (R96). -/
theorem encodeOperand_jmp_pc (w pc pc' : Nat) (lt : LabelTable) (o : Operand) :
    encodeOperand .jmp w pc lt o = encodeOperand .jmp w pc' lt o := by
  cases o <;> rfl

theorem encodeOperands_congr {mn : Mnemonic} {w pc pc' : Nat} {lt lt' : LabelTable} {ops : List Operand}
    (h : ∀ o ∈ ops, encodeOperand mn w pc lt o = encodeOperand mn w pc' lt' o) :
    encodeOperands mn w pc lt ops = encodeOperands mn w pc' lt' ops := by
  induction ops with
  | nil => rfl
  | cons o rest ih =>
    rw [encodeOperands_cons, encodeOperands_cons, h o List.mem_cons_self, ih fun p hp => h p (List.mem_cons_of_mem o hp)]

/-- The block reads `pc` and the Label Table through the fields of its operands alone (R133 d). -/
theorem encodeInstr_congr {mn : Mnemonic} {pc pc' : Nat} {lt lt' : LabelTable} {ops : List Operand}
    (h : ∀ o ∈ ops, encodeOperand mn (opWidth mn) pc lt o = encodeOperand mn (opWidth mn) pc' lt' o) (T : Tables) :
    encodeInstr T mn ops pc lt = encodeInstr T mn ops pc' lt' := by
  rw [encodeInstr, encodeInstr, encodeOperands_congr h]

/-! ### The statements about operands -/

/-- Settles O9, one class after the other; the label class is what the other four leave. -/
theorem operandClassBySpelling : Obligations.OperandClassBySpelling := by
  intro t
  refine ⟨fun d => Operand.ofToken_eq_hex, fun d => Operand.ofToken_eq_bin, fun d => ?_,
    fun r => Operand.ofToken_eq_reg_iff_letter, fun n => ?_⟩
  · rw [Operand.ofToken_eq_dec, allDecimal_iff]
  · have hdec : (∀ d, Operand.ofToken t ≠ .dec d) ↔ ¬ (t ≠ [] ∧ ∀ c ∈ t, c ∈ decimalDigits) := by
      simp only [ne_eq, Operand.ofToken_eq_dec, ← allDecimal_iff, not_and, forall_eq']
    rw [← hdec, ← Operand.exists_ofToken_eq_reg, not_exists, Operand.ofToken_eq_label]
    simp only [ne_eq, Operand.ofToken_eq_hex, Operand.ofToken_eq_bin]

/-- Settles O10: digits by position, numbers by the fold, and a decimal token has digits only. -/
theorem numericLiteralFields : Obligations.NumericLiteralFields := by
  refine ⟨fun b c k _ => ?_, parseBase_eq, fun mn w pc lt d => ⟨rfl, rfl, fun hd => ?_⟩⟩
  · rw [digitOf_eq_some, digitValue_eq_some]
  · obtain ⟨v, hv⟩ := exists_parseBase_ten hd
    exact ⟨v, hv, encodeOperand_of_literalValue (o := .dec d) hv mn w pc lt⟩

/-- Settles O11: the token is in the register class, whose field reads neither mnemonic nor width. -/
theorem registerFieldIsFourBits : Obligations.RegisterFieldIsFourBits := by
  intro mn w pc lt c k hk
  have hlt : k < 16 := (List.getElem?_eq_some_iff.mp hk).1
  have hreg : Operand.ofToken [c] = .reg ⟨k, hlt⟩ := Operand.ofToken_eq_reg_iff_letter.mpr ⟨c, rfl, hk⟩
  rw [hreg]
  exact ⟨rfl, registerField_length ⟨k, hlt⟩⟩

/-- Settles O12: the table's answer decides. -/
theorem labelUnderJmpIsDirect : Obligations.LabelUnderJmpIsDirect := fun _ w pc _ =>
  ⟨fun _ hl => encodeOperand_label_direct hl w pc, fun hn => encodeOperand_label_undeclared hn .jmp w pc⟩

/-- Settles O13: only `JMP` is in direct mode, and an address at or after `pc` is `pc` and a distance. -/
theorem labelElsewhereIsForwardOffset : Obligations.LabelElsewhereIsForwardOffset := by
  intro mn n w pc lt hmn
  have hrel := isDirect_of_ne_jmp hmn
  refine ⟨fun l hl hlt => encodeOperand_label_behind hrel hl hlt w, fun l hl hle => ?_,
    fun hn => encodeOperand_label_undeclared hn mn w pc⟩
  rw [← Nat.add_sub_of_le hle] at hl
  exact encodeOperand_label_ahead hrel hl w

/-- Settles O14: a bit string of `n` bits has a value below `2 ^ n`, and `bin` needs no more bits than that. -/
theorem renderKeepsEveryDigit : Obligations.RenderKeepsEveryDigit := by
  intro v w hw
  refine ⟨⟨bin_ne_nil v, valBits_bin v, fun s hs hv => hv ▸ bin_length_le_of_valBits hs⟩, valBits_render v w,
    render_length v w, ?_⟩
  rw [render_length, max_eq_left_iff, bin_length_le_iff hw]

/-- Settles O15: fields have at least the width asked or the register's 4 bits, and errors name the token. -/
theorem operandEncoderOutcomes : Obligations.OperandEncoderOutcomes := by
  intro mn w pc lt t hw
  cases h : encodeOperand mn w pc lt (Operand.ofToken t) with
  | ok f => exact .inl ⟨f, rfl, four_le_length_of_encodeOperand hw h⟩
  | error e =>
    have herr := encodeOperand_eq_error h
    rw [token_of_encodeOperand_error h] at herr
    obtain rfl | rfl | ⟨hrel, rfl⟩ := herr
    · exact .inr (.inl rfl)
    · exact .inr (.inr (.inl rfl))
    · refine .inr (.inr (.inr ⟨?_, rfl⟩))
      rintro rfl
      cases hrel

/-- Settles O16: the block reads them through its operands' fields, and those through labels alone. -/
theorem onlyLabelOperandsReadState : Obligations.OnlyLabelOperandsReadState := by
  intro T mn ops pc pc' lt lt'
  refine ⟨fun hops => encodeInstr_congr (fun o ho => ?_) T, ?_⟩
  · exact encodeOperand_of_not_label (fun n hn => hops n (hn ▸ ho)) mn _ pc pc' lt lt'
  · rintro rfl
    exact encodeInstr_congr (fun o _ => encodeOperand_jmp_pc _ pc pc' lt o) T

end Machine

end Sys2Proof
end

section
/-! PROOFS. The words of spec/41_instruction_encoder.md: the meanings R122 to R131 against the one algorithm R121, the word each mnemonic writes
in pass 2, and its length (R132, R133). -/

namespace Sys2Proof.Machine

/-! ### The algorithm after the mnemonic and the count -/

theorem andThen_assoc {α β γ : Type} (x : Except ErrorInfo α) (f : α → Except ErrorInfo β) (g : β → Except ErrorInfo γ) :
    andThen (andThen x f) g = andThen x fun a => andThen (f a) g := by
  cases x <;> rfl

theorem encodeInstr_of_length_ne {T : Tables} {mn : Mnemonic} {code : BitVec 4} {n : Nat} {ops : List Operand}
    (hl : T.lookup mn = some (code, n)) (hn : ops.length ≠ n) (pc : Nat) (lt : LabelTable) :
    encodeInstr T mn ops pc lt = .error (.arityError mn.name ops.length n) := by
  rw [encodeInstr, hl]
  exact if_neg hn

/-- With the right count the operands alone decide the outcome (R121). -/
theorem encodeInstr_of_lookup {T : Tables} {mn : Mnemonic} {code : BitVec 4} {ops : List Operand}
    (hl : T.lookup mn = some (code, ops.length)) (pc : Nat) (lt : LabelTable) : encodeInstr T mn ops pc lt =
      andThen (encodeOperands mn (opWidth mn) pc lt ops) fun fs => .ok (pad16 (bitsOf code ++ joinFields mn fs)) := by
  rw [encodeInstr, hl]
  exact if_pos rfl

/-- The first error of the operands is the block's (R190). -/
theorem encodeInstr_of_operands_error {T : Tables} {mn : Mnemonic} {code : BitVec 4} {ops : List Operand} {pc : Nat}
    {lt : LabelTable} {e : ErrorInfo} (hl : T.lookup mn = some (code, ops.length))
    (he : encodeOperands mn (opWidth mn) pc lt ops = .error e) : encodeInstr T mn ops pc lt = .error e := by
  rw [encodeInstr_of_lookup hl, he, andThen_error]

/-- Two operands are encoded one after the other (R121). -/
theorem encodeInstr_pair {T : Tables} {mn : Mnemonic} {code : BitVec 4} (hl : T.lookup mn = some (code, 2)) (a b : Operand)
    (pc : Nat) (lt : LabelTable) : encodeInstr T mn [a, b] pc lt =
      andThen (encodeOperand mn (opWidth mn) pc lt a) fun fa =>
        andThen (encodeOperand mn (opWidth mn) pc lt b) fun fb => .ok (pad16 (bitsOf code ++ joinFields mn [fa, fb])) := by
  rw [encodeInstr_of_lookup hl]
  simp [encodeOperands_cons, andThen_assoc]

theorem encodeInstr_of_ne_pair {T : Tables} {mn : Mnemonic} {code : BitVec 4} {ops : List Operand}
    (hl : T.lookup mn = some (code, 2)) (hne : ∀ a b, ops ≠ [a, b]) (pc : Nat) (lt : LabelTable) :
    encodeInstr T mn ops pc lt = .error (.arityError mn.name ops.length 2) := by
  refine encodeInstr_of_length_ne hl (fun hlen => ?_) pc lt
  obtain ⟨a, b, rfl⟩ := List.length_eq_two.mp hlen
  exact hne a b rfl

/-! ### Each meaning's word is the algorithm's -/

theorem wordHalt_eq (T : Tables) (ops : List Operand) (pc : Nat) (lt : LabelTable) :
    wordHalt ops = encodeInstr T .halt ops pc lt := by
  cases ops <;> rfl

theorem wordNop_eq (T : Tables) (ops : List Operand) (pc : Nat) (lt : LabelTable) :
    wordNop ops = encodeInstr T .nop ops pc lt := by
  cases ops <;> rfl

theorem wordLdi_eq (T : Tables) (ops : List Operand) (pc : Nat) (lt : LabelTable) :
    wordLdi ops pc lt = encodeInstr T .ldi ops pc lt := by
  unfold wordLdi
  split
  · simp [encodeInstr_pair (T := T) (mn := .ldi) rfl, joinFields, hasGap, opWidth]
  · next hne => exact (encodeInstr_of_ne_pair rfl hne pc lt).symm

theorem wordDec_eq (T : Tables) (ops : List Operand) (pc : Nat) (lt : LabelTable) :
    wordDec T ops pc lt = encodeInstr T .dec ops pc lt := by
  unfold wordDec
  split
  · simp [encodeInstr_pair (T := T) (mn := .dec) rfl, joinFields, hasGap, opWidth]
  · next hne => exact (encodeInstr_of_ne_pair rfl hne pc lt).symm

theorem wordInc_eq (T : Tables) (ops : List Operand) (pc : Nat) (lt : LabelTable) :
    wordInc T ops pc lt = encodeInstr T .inc ops pc lt := by
  unfold wordInc
  split
  · simp [encodeInstr_pair (T := T) (mn := .inc) rfl, joinFields, hasGap, opWidth]
  · next hne => exact (encodeInstr_of_ne_pair rfl hne pc lt).symm

theorem wordAdd_eq (T : Tables) (ops : List Operand) (pc : Nat) (lt : LabelTable) :
    wordAdd T ops pc lt = encodeInstr T .add ops pc lt := by
  unfold wordAdd
  split
  · rw [encodeInstr_of_lookup rfl]
    simp [encodeOperands_cons, andThen_assoc, joinFields, hasGap, opWidth]
  · next hne =>
    refine (encodeInstr_of_length_ne rfl (fun hlen => ?_) pc lt).symm
    obtain ⟨a, b, c, rfl⟩ := List.length_eq_three.mp hlen
    exact hne a b c rfl

theorem wordJmp_eq (T : Tables) (ops : List Operand) (pc : Nat) (lt : LabelTable) :
    wordJmp T ops pc lt = encodeInstr T .jmp ops pc lt := by
  unfold wordJmp
  split
  · rw [encodeInstr_of_lookup rfl]
    simp [encodeOperands_cons, andThen_assoc, joinFields, hasGap, opWidth]
  · next hne =>
    refine (encodeInstr_of_length_ne rfl (fun hlen => ?_) pc lt).symm
    obtain ⟨a, rfl⟩ := List.length_eq_one_iff.mp hlen
    exact hne a rfl

theorem wordAdi_eq (T : Tables) (ops : List Operand) (pc : Nat) (lt : LabelTable) :
    wordAdi T ops pc lt = encodeInstr T .adi ops pc lt := rfl

theorem wordCmpj_eq (T : Tables) (ops : List Operand) (pc : Nat) (lt : LabelTable) :
    wordCmpj T ops pc lt = encodeInstr T .cmpj ops pc lt := rfl

theorem wordExtra_eq (T : Tables) (mn : Text) (ops : List Operand) (pc : Nat) (lt : LabelTable) :
    wordExtra T mn ops pc lt = encodeInstr T (.extra mn) ops pc lt := by
  unfold wordExtra encodeInstr
  cases T.lookup (.extra mn) <;> rfl

/-- Settles O18, one meaning each. -/
theorem meaningsFollowTheAlgorithm : Obligations.MeaningsFollowTheAlgorithm := by
  intro i s
  cases i with
  | halt ops => exact congrArg (instrLine s) (wordHalt_eq tables ops s.pc s.lt)
  | ldi ops => exact congrArg (instrLine s) (wordLdi_eq tables ops s.pc s.lt)
  | add ops => exact congrArg (instrLine s) (wordAdd_eq tables ops s.pc s.lt)
  | adi ops => exact congrArg (instrLine s) (wordAdi_eq tables ops s.pc s.lt)
  | cmpj ops => exact congrArg (instrLine s) (wordCmpj_eq tables ops s.pc s.lt)
  | dec ops => exact congrArg (instrLine s) (wordDec_eq tables ops s.pc s.lt)
  | inc ops => exact congrArg (instrLine s) (wordInc_eq tables ops s.pc s.lt)
  | jmp ops => exact congrArg (instrLine s) (wordJmp_eq tables ops s.pc s.lt)
  | nop ops => exact congrArg (instrLine s) (wordNop_eq tables ops s.pc s.lt)
  | extra mn ops => exact congrArg (instrLine s) (wordExtra_eq tables mn ops s.pc s.lt)

/-! ### An instruction line in pass 2 -/

/-- In pass 2, inside the image, an instruction settles what the block answers for it (R157). -/
theorem exec_emit {s : State} (hp : s.pass = .emit) (ha : s.outAddr < 256) {i : Instr} {r : Except ErrorInfo Bits}
    (hr : encodeInstr tables i.mnemonic i.operands s.pc s.lt = r) : exec i s = .next (s.settle r) := by
  rw [meaningsFollowTheAlgorithm i s, hr, instrLine, hp]
  exact if_pos ha

/-- Where every operand has a field, the padded code and fields are written (R121, R157). -/
theorem exec_of_fields {s : State} (hp : s.pass = .emit) (ha : s.outAddr < 256) {i : Instr} {code : BitVec 4} {fs : List Bits}
    (hl : tables.lookup i.mnemonic = some (code, i.operands.length))
    (hf : encodeOperands i.mnemonic (opWidth i.mnemonic) s.pc s.lt i.operands = .ok fs) :
    exec i s = .next (s.emit (pad16 (bitsOf code ++ joinFields i.mnemonic fs))) :=
  exec_emit hp ha (encodeInstr_of_fields hl hf)

theorem encodeOperands_pair {mn : Mnemonic} {w pc : Nat} {lt : LabelTable} {a b : Operand} {fa fb : Bits}
    (ha : encodeOperand mn w pc lt a = .ok fa) (hb : encodeOperand mn w pc lt b = .ok fb) :
    encodeOperands mn w pc lt [a, b] = .ok [fa, fb] := by
  simp [encodeOperands_cons, ha, hb]

/-- Settles O28: the table, the count and the operands are looked at in this order, and each failure aborts. -/
theorem extraWritesItsWordOrAborts : Obligations.ExtraWritesItsWordOrAborts := by
  intro s mn ops hp ha
  cases hl : tables.lookup (.extra mn) with
  | none => exact exec_extra_of_lookup_none hp ha hl ops
  | some row =>
    obtain ⟨code, n⟩ := row
    by_cases hn : ops.length = n
    · subst hn
      simp only [ne_eq, not_true_eq_false, if_false]
      cases hf : encodeOperands (.extra mn) 8 s.pc s.lt ops with
      | ok fs => exact exec_of_fields hp ha hl hf
      | error e => exact exec_emit (i := .extra mn ops) hp ha (encodeInstr_of_operands_error hl hf)
    · simp only [ne_eq, hn, not_false_eq_true, if_true]
      exact exec_emit (i := .extra mn ops) hp ha (encodeInstr_of_length_ne hl hn s.pc s.lt)

/-- Settles O21: the code and the pad of a word without fields are sixteen zeros. -/
theorem haltWord : Obligations.HaltWord := by
  refine ⟨fun _ _ _ => rfl, fun _ _ _ _ _ => rfl, fun s hp ha => exec_emit (i := .halt []) hp ha rfl,
    fun s o ops hp ha => exec_emit (i := .halt (o :: ops)) hp ha rfl, fun t ht => ?_, fun m a w hw => ?_⟩
  · rw [Mnemonic.ofToken, ht]
    rfl
  · unfold Memory.unlisted at hw
    split at hw <;> cases hw
    rfl

/-- Settles O22: the code and the pad of a word without fields are four ones and twelve zeros. -/
theorem nopWord : Obligations.NopWord := by
  refine ⟨fun _ _ _ => rfl, fun _ _ _ _ _ => rfl, fun s hp ha => exec_emit (i := .nop []) hp ha rfl,
    fun s o ops hp ha => exec_emit (i := .nop (o :: ops)) hp ha rfl, fun t ht => ?_⟩
  rw [Mnemonic.ofToken, ht]
  rfl

/-- Settles O23: no filler stands between the fields. -/
theorem ldiWritesItsWord : Obligations.LdiWritesItsWord := by
  intro s a b fa fb hp hs ha hb
  have hcode : bitsOf 1#4 = [false, false, false, true] := rfl
  rw [exec_of_fields (i := .ldi [a, b]) hp hs rfl (encodeOperands_pair ha hb)]
  simp [Instr.mnemonic, joinFields, hasGap, hcode]

/-- Settles O24: no filler stands between the fields. -/
theorem addWritesItsWord : Obligations.AddWritesItsWord := by
  intro s a b c fa fb fc hp hs ha hb hc
  have hf : encodeOperands .add 8 s.pc s.lt [a, b, c] = .ok [fa, fb, fc] := by simp [encodeOperands_cons, ha, hb, hc]
  rw [exec_of_fields (i := .add [a, b, c]) hp hs rfl hf]
  simp [Instr.mnemonic, joinFields, hasGap, tables]

/-- Settles O25: the two mnemonics have one width and no filler. -/
theorem narrowWriteTheirWord : Obligations.NarrowWriteTheirWord := by
  intro s ops fs hp hs
  refine ⟨fun hn hf => ?_, fun hn hf => ?_⟩
  · exact exec_of_fields (i := .adi ops) hp hs (by rw [Instr.operands, hn]; rfl) hf
  · exact exec_of_fields (i := .cmpj ops) hp hs (by rw [Instr.operands, hn]; rfl) hf

/-- Settles O26: the filler stands between the fields. -/
theorem gapWriteTheirWord : Obligations.GapWriteTheirWord := by
  intro s a b fa fb hp hs
  refine ⟨fun ha hb => ?_, fun ha hb => ?_⟩
  · rw [exec_of_fields (i := .dec [a, b]) hp hs rfl (encodeOperands_pair ha hb)]
    simp [Instr.mnemonic, joinFields, hasGap, zeros, tables]
  · rw [exec_of_fields (i := .inc [a, b]) hp hs rfl (encodeOperands_pair ha hb)]
    simp [Instr.mnemonic, joinFields, hasGap, zeros, tables]

theorem exec_jmp_of_field {s : State} (hp : s.pass = .emit) (ha : s.outAddr < 256) {o : Operand} {f : Bits}
    (ho : encodeOperand .jmp 8 s.pc s.lt o = .ok f) :
    exec (.jmp [o]) s = .next (s.emit (pad16 (bitsOf Config.pJmp ++ f))) :=
  exec_emit (i := .jmp [o]) hp ha (encodeInstr_jmp tables ho)

/-- Settles O27: a declared label is an operand that has a field, its address, whatever `pc` is. -/
theorem jmpWritesItsWord : Obligations.JmpWritesItsWord := fun s _ _ hp ha =>
  ⟨exec_jmp_of_field hp ha, fun _ _ hl => exec_jmp_of_field hp ha (encodeOperand_label_direct hl 8 s.pc)⟩

/-! ### The length of a word -/

theorem pad16_length (s : Bits) : (pad16 s).length = max 16 s.length := by
  rw [pad16_eq, List.length_append, zeros_length]
  omega

theorem overlong_ok {s : Bits} : overlong (.ok s) = true ↔ 16 < s.length := decide_eq_true_iff

theorem word16_ok (s : Bits) : word16 (.ok s) = if s.length = 16 then some (word16Of s) else none := rfl

theorem take_four_pad16 (code : BitVec 4) (body : Bits) : (pad16 (bitsOf code ++ body)).take 4 = bitsOf code := by
  rw [pad16_eq, List.append_assoc]
  exact List.take_left' (bitsOf_length code)

/-- Settles O20: the pad brings a word up to 16 bits and adds nothing to one that is longer. -/
theorem wordLengthAndOverlong : Obligations.WordLengthAndOverlong := by
  intro T mn ops pc lt s hs
  obtain ⟨code, fs, hl, hf, rfl⟩ := encodeInstr_eq_ok.mp hs
  have hbody := joinFields_length (mn := mn) (fs := fs) fun hg => (encodeOperands_length hf).trans (lookup_of_hasGap hg hl)
  have hlen := pad16_length (bitsOf code ++ joinFields mn fs)
  rw [List.length_append, bitsOf_length, hbody] at hlen
  simp only [hasGap_iff] at hlen
  refine ⟨by omega, ⟨code, ops.length, hl, take_four_pad16 _ _⟩, fun gs hg => ?_, fun ho => ?_, fun ho => ?_⟩
  · obtain rfl : fs = gs := by simpa [hf] using hg
    rw [overlong_ok, hlen]
    omega
  · rw [← Bool.not_eq_true, overlong_ok] at ho
    have h16 : (pad16 (bitsOf code ++ joinFields mn fs)).length = 16 := by omega
    exact ⟨_, by rw [word16_ok, if_pos h16], bitsOf_word16Of h16⟩
  · rw [overlong_ok] at ho
    rw [word16_ok, if_neg (by omega)]

end Sys2Proof.Machine
end

section
/-! PROOFS. Source lines, cleaned and split (spec/42_two_pass_sequencer.md R152, R153): where the comment and the white space go, what the tokens
are, what kind of line it is, and that the instruction read is well-formed (spec/70_reset_and_hazards.md R212 f). -/

namespace Sys2Proof

/-! ### Clean -/

theorem cutComment_eq_takeWhile (t : Text) : cutComment t = t.takeWhile (· != ';') := by
  induction t with
  | nil => rfl
  | cons c cs ih => by_cases h : c = ';' <;> simp [cutComment, h, ih]

theorem trimLeft_eq_dropWhile (t : Text) : trimLeft t = t.dropWhile isSpace := by
  induction t with
  | nil => rfl
  | cons c cs ih => cases h : isSpace c <;> simp [trimLeft, h, ih]

theorem trimRight_eq_rdropWhile (t : Text) : trimRight t = t.rdropWhile isSpace := by
  rw [trimRight, trimLeft_eq_dropWhile, List.rdropWhile]

/-- The text before the first semicolon is all that is kept of a line that has one (R152). -/
theorem cutComment_append {a : Text} (h : ∀ c ∈ a, c ≠ ';') (b : Text) : cutComment (a ++ ';' :: b) = a := by
  rw [cutComment_eq_takeWhile, List.takeWhile_append_of_pos (by simpa using h)]
  simp

/-- Trimming on the left drops white space alone. -/
theorem exists_trimLeft_append (t : Text) : ∃ l : Text, t = l ++ trimLeft t ∧ l.all isSpace = true :=
  ⟨t.takeWhile isSpace, by rw [trimLeft_eq_dropWhile, List.takeWhile_append_dropWhile], List.all_takeWhile⟩

/-- Trimming on the right drops white space alone. -/
theorem exists_append_trimRight (t : Text) : ∃ r : Text, t = trimRight t ++ r ∧ r.all isSpace = true := by
  obtain ⟨l, hl, hspace⟩ := exists_trimLeft_append t.reverse
  refine ⟨l.reverse, ?_, by simpa using hspace⟩
  rw [trimRight, ← List.reverse_append, ← hl, List.reverse_reverse]

theorem not_isSpace_head_trimLeft {t : Text} {c : Char} (h : (trimLeft t).head? = some c) : isSpace c = false := by
  have := List.head?_dropWhile_not isSpace t
  rwa [← trimLeft_eq_dropWhile, h] at this

theorem not_isSpace_last_trimRight {t : Text} {c : Char} (h : (trimRight t).getLast? = some c) : isSpace c = false :=
  not_isSpace_head_trimLeft (by simpa [trimRight] using h)

/-- Neither end of a cleaned line is white space (R152). -/
theorem not_isSpace_ends_clean {t : Text} {c : Char} (h : (clean t).head? = some c ∨ (clean t).getLast? = some c) :
    isSpace c = false := by
  obtain h | h := h
  · obtain ⟨r, hr, -⟩ := exists_append_trimRight (trimLeft (cutComment t))
    refine not_isSpace_head_trimLeft (t := cutComment t) ?_
    rw [hr, List.head?_append]
    exact Option.or_eq_some_iff.mpr (.inl h)
  · exact not_isSpace_last_trimRight h

/-- No semicolon is left in a cleaned line (R152). -/
theorem ne_semicolon_of_mem_clean {t : Text} {c : Char} (h : c ∈ clean t) : c ≠ ';' := by
  obtain ⟨l, hl, -⟩ := exists_trimLeft_append (cutComment t)
  obtain ⟨r, hr, -⟩ := exists_append_trimRight (trimLeft (cutComment t))
  have hcut : c ∈ cutComment t := by
    rw [hl, hr]
    exact List.mem_append_right l (List.mem_append_left r h)
  rw [cutComment_eq_takeWhile] at hcut
  simpa using List.mem_takeWhile_imp hcut

/-! ### Split -/

/-- A text is read from the left by dropping a white-space character or taking a whole run of others, as `split` does (R153). -/
theorem textInduction {motive : Text → Prop} (nil : motive [])
    (space : ∀ c cs, isSpace c = true → motive cs → motive (c :: cs))
    (token : ∀ t rest, t ≠ [] → t.all (fun c => !isSpace c) = true → (∀ c ∈ rest.head?, isSpace c = true) →
      motive rest → motive (t ++ rest)) : ∀ t, motive t
  | [] => nil
  | c :: cs => by
    cases hc : isSpace c with
    | true => exact space c cs hc (textInduction nil space token cs)
    | false =>
      have hrest : ∀ d ∈ (cs.dropWhile fun d => !isSpace d).head?, isSpace d = true := by
        intro d hd
        have := List.head?_dropWhile_not (fun d => !isSpace d) cs
        rw [hd] at this
        simpa using this
      have hrun : (c :: cs.takeWhile fun d => !isSpace d).all (fun d => !isSpace d) = true := by
        rw [List.all_cons, List.all_takeWhile, hc]
        rfl
      have := token _ _ (List.cons_ne_nil _ _) hrun hrest (textInduction nil space token _)
      rwa [List.cons_append, List.takeWhile_append_dropWhile] at this
termination_by t => t.length
decreasing_by
  · exact Nat.lt_succ_of_le (List.length_dropWhile_le _ cs)
  · exact Nat.lt_succ_self cs.length

theorem split_token_alone {t : Text} (ht : t ≠ []) (hs : t.all (fun c => !isSpace c) = true) : split t = [t] := by
  have := split_token ht hs (rest := []) (by simp)
  rwa [List.append_nil] at this

/-- White space separates (R153). -/
theorem split_append_space {c : Char} (hc : isSpace c = true) (a b : Text) :
    split (a ++ c :: b) = split a ++ split b := by
  induction a using textInduction with
  | nil => exact split_space hc b
  | space d ds hd ih => rw [List.cons_append, split_space hd, split_space hd, ih]
  | token t rest ht hs hr ih =>
    have hr' : ∀ d ∈ (rest ++ c :: b).head?, isSpace d = true := by
      cases rest with
      | nil => simpa using hc
      | cons d ds => simpa using hr
    rw [List.append_assoc, split_token ht hs hr', split_token ht hs hr, ih, List.cons_append]

theorem token_of_mem_split {t u : Text} (h : u ∈ split t) : u ≠ [] ∧ u.all (fun c => !isSpace c) = true := by
  induction t using textInduction with
  | nil => cases h
  | space c cs hc ih => exact ih (split_space hc cs ▸ h)
  | token run rest ht hs hr ih =>
    rw [split_token ht hs hr] at h
    obtain rfl | h := List.mem_cons.mp h
    · exact ⟨ht, hs⟩
    · exact ih h

/-- The tokens hold the characters of the text that are not white space, in their order (R153). -/
theorem flatten_split (t : Text) : (split t).flatten = t.filter fun c => !isSpace c := by
  induction t using textInduction with
  | nil => rfl
  | space c cs hc ih => rw [split_space hc, ih, List.filter_cons_of_neg (by simp [hc])]
  | token run rest ht hs hr ih =>
    rw [split_token ht hs hr, List.flatten_cons, ih, List.filter_append, List.filter_eq_self.mpr (List.all_eq_true.mp hs)]

/-- A text that does not end in white space ends as its last token does (R153). -/
theorem getLast?_split {t : Text} (h : ∀ c, t.getLast? = some c → isSpace c = false) {u : Text}
    (hu : (split t).getLast? = some u) : u.getLast? = t.getLast? := by
  have hne : u ≠ [] := (token_of_mem_split (List.mem_of_getLast? hu)).1
  have hlast : (split t).flatten.getLast? = u.getLast? := by
    obtain ⟨us, hus⟩ := List.getLast?_eq_some_iff.mp hu
    rw [hus, List.flatten_append, List.flatten_singleton, List.getLast?_append_of_ne_nil _ hne]
  rw [← hlast, flatten_split]
  cases ht : t.getLast? with
  | none => simp [List.getLast?_eq_none_iff.mp ht]
  | some c =>
    obtain ⟨cs, rfl⟩ := List.getLast?_eq_some_iff.mp ht
    simp [h c ht]

/-- A cleaned line that is not blank has a token (R153). -/
theorem split_clean_ne_nil {raw : Text} (h : clean raw ≠ []) : split (clean raw) ≠ [] := by
  intro hsplit
  have hnone := flatten_split (clean raw)
  rw [hsplit, List.flatten_nil, eq_comm, List.filter_eq_nil_iff] at hnone
  obtain ⟨c, hc⟩ := Option.ne_none_iff_exists'.mp (mt List.head?_eq_none_iff.mp h)
  exact hnone c (List.mem_of_head? hc) (by simp [not_isSpace_ends_clean (.inl hc)])

/-- The tokens of a cleaned line can stand in one (R212 f). -/
theorem isTokenChar_of_mem_split {raw u : Text} (h : u ∈ split (clean raw)) : u.all isTokenChar = true := by
  refine List.all_eq_true.mpr fun c hc => ?_
  have hmem : c ∈ (split (clean raw)).flatten := List.mem_flatten_of_mem h hc
  rw [flatten_split, List.mem_filter] at hmem
  simpa [isTokenChar, ne_semicolon_of_mem_clean hmem.1] using hmem.2

/-! ### The kind of a line -/

theorem endsInColon_iff {t : Text} : endsInColon t = true ↔ ∃ n, t = n ++ [':'] := by
  rw [endsInColon, beq_iff_eq, List.getLast?_eq_some_iff]

/-- A cleaned line with nothing in it is blank (R152). -/
theorem readLine_of_clean_nil {raw : Text} (h : clean raw = []) : readLine raw = .blank := by
  rw [readLine, h]
  rfl

theorem readLine_of_clean_colon {raw n : Text} (h : clean raw = n ++ [':']) : readLine raw = .label n := by
  rw [readLine, h, endsInColon_append_colon, if_pos rfl, List.dropLast_concat]

/-- A line read as an instruction is its tokens' and does not end in a colon (R153). -/
theorem readLine_eq_instr {raw : Text} {i : Instr} (h : readLine raw = .instr i) : endsInColon (clean raw) = false ∧
    ∃ mn toks, split (clean raw) = mn :: toks ∧ i = Instr.make (Mnemonic.ofToken mn) (toks.map Operand.ofToken) := by
  unfold readLine at h
  split at h
  · cases h
  · next hcolon =>
    refine ⟨by simpa using hcolon, ?_⟩
    cases hsplit : split (clean raw) with
    | nil => simp [hsplit, instrOfTokens] at h
    | cons mn toks =>
      simp only [hsplit, instrOfTokens, Line.instr.injEq] at h
      exact ⟨mn, toks, rfl, h.symm⟩

/-! ### The instruction read is well-formed -/

theorem isTokenChar_upperChar {c : Char} (h : isTokenChar c = true) : isTokenChar (upperChar c) = true := by
  by_cases hlower : 97 ≤ c.toNat ∧ c.toNat ≤ 122
  · have hcode : (upperChar c).toNat = c.toNat - 32 := by rw [upperChar_toNat, if_pos hlower]
    have hne : ∀ d : Char, d.toNat < 65 → upperChar c ≠ d := fun d hd he => by
      rw [he] at hcode
      omega
    simp [isTokenChar, isSpace, hne ' ' (by decide), hne '\t' (by decide), hne '\r' (by decide), hne ';' (by decide)]
    omega
  · rwa [upperChar, if_neg hlower]

/-- Upper-casing makes no colon and removes none (R9). -/
theorem upperChar_eq_colon {c : Char} : upperChar c = ':' ↔ c = ':' := by
  rw [← Char.toNat_inj, ← Char.toNat_inj, upperChar_toNat, show ':'.toNat = 58 from rfl]
  split <;> omega

theorem endsInColon_upper (t : Text) : endsInColon (upper t) = endsInColon t := by
  rw [Bool.eq_iff_iff]
  simp [endsInColon, upper, List.getLast?_map, Option.map_eq_some_iff, upperChar_eq_colon]

theorem Mnemonic.name_ofToken (t : Text) : (Mnemonic.ofToken t).name = upper t :=
  Mnemonic.name_ofName (upper t)

/-- A token is read as a mnemonic whose name is a token (R76, R212 f). -/
theorem Mnemonic.wellFormed_ofToken {t : Text} (hne : t ≠ []) (ht : t.all isTokenChar = true) :
    (Mnemonic.ofToken t).wellFormed = true := by
  have hname := Mnemonic.name_ofToken t
  cases hm : Mnemonic.ofToken t with
  | extra n =>
    obtain rfl : n = upper t := by rwa [hm] at hname
    have hchars : (upper t).all isTokenChar = true := by
      simp only [upper, List.all_map, List.all_eq_true, Function.comp_apply] at ht ⊢
      exact fun c hc => isTokenChar_upperChar (ht c hc)
    have hnil : upper t ≠ [] := by simpa [upper] using hne
    simp only [Mnemonic.wellFormed, hchars, upper_upper, show Mnemonic.ofName (upper t) = .extra (upper t) from hm]
    simpa using hnil
  | _ => rfl

/-- A token is read as an operand of its own class (R91, R212 f). -/
theorem Operand.wellFormed_ofToken {t : Text} (hne : t ≠ []) (ht : t.all isTokenChar = true) :
    (Operand.ofToken t).wellFormed = true := by
  cases h : Operand.ofToken t with
  | hex d =>
    simp only [ofToken_eq_hex.mp h, List.all_cons, Bool.and_eq_true] at ht
    exact ht.2.2
  | bin d =>
    simp only [ofToken_eq_bin.mp h, List.all_cons, Bool.and_eq_true] at ht
    exact ht.2.2
  | dec d => exact (ofToken_eq_dec.mp h).2
  | reg r => rfl
  | label n =>
    obtain ⟨rfl, -⟩ := ofToken_eq_label.mp h
    simpa [wellFormed, h, hne] using ht

/-- The operand of a token is spelt with a final colon only if the token is (R91). -/
theorem Operand.endsInColon_token {t : Text} (h : endsInColon t = false) : endsInColon (Operand.ofToken t).token = false := by
  cases ht : Operand.ofToken t with
  | reg r => exact (Operand.plain_reg r).2
  | hex d | bin d | dec d | label n => rwa [token_of_ofToken ht nofun]

/-- The last token of the instruction ends in a colon only if the last token of its line does. -/
theorem notLabel_make {mn u : Text} {toks : List Text} (hu : (mn :: toks).getLast? = some u) (hcolon : endsInColon u = false) :
    (Instr.make (Mnemonic.ofToken mn) (toks.map Operand.ofToken)).notLabel = true := by
  rw [Instr.notLabel, Instr.tokens, Instr.mnemonic_make, Instr.operands_make]
  obtain rfl | ⟨ts, t, rfl⟩ := List.eq_nil_or_concat' toks
  · obtain rfl : mn = u := by simpa using hu
    simp [Mnemonic.name_ofToken, endsInColon_upper, hcolon]
  · rw [← List.cons_append, List.getLast?_concat, Option.some.injEq] at hu
    subst hu
    rw [List.map_append, List.map_append, ← List.cons_append, List.map_singleton, List.map_singleton, List.getLast?_concat]
    simp [Operand.endsInColon_token hcolon]

/-! ### The statements about lines -/

/-- Settles O5: the comment is cut first, and each trim drops white space up to the first other character. -/
theorem cleanLine : Obligations.CleanLine := by
  refine ⟨fun a b ha => ?_, fun a ha => ⟨?_, fun c => not_isSpace_ends_clean⟩⟩
  · rw [clean, cutComment_append ha, clean, cutComment_id ha]
  · obtain ⟨l, hl, hlspace⟩ := exists_trimLeft_append a
    obtain ⟨r, hr, hrspace⟩ := exists_append_trimRight (trimLeft a)
    refine ⟨l, r, ?_, hlspace, hrspace⟩
    rw [clean, cutComment_id ha, List.append_assoc, ← hr, ← hl]

/-- Settles O6 by `textInduction`, which follows the splitting. -/
theorem splitLine : Obligations.SplitLine :=
  ⟨rfl, fun _ => split_token_alone, fun a b _ hc => split_append_space hc a b, fun _ _ => token_of_mem_split⟩

/-- Settles O7: the last character decides between a label and an instruction, and a line that is not blank has a first token. -/
theorem lineClassification : Obligations.LineClassification := by
  refine fun raw => ⟨readLine_of_clean_nil, fun n => readLine_of_clean_colon, fun hne hno => ?_⟩
  have hcolon : endsInColon (clean raw) = false := Bool.eq_false_iff.mpr (mt endsInColon_iff.mp hno)
  obtain ⟨mn, toks, hsplit⟩ := List.exists_cons_of_ne_nil (split_clean_ne_nil hne)
  exact ⟨mn, toks, hsplit, Machine.readLine_of_split hcolon hsplit⟩

/-- Settles O3: every token of a cleaned line is read as a mnemonic or an operand of its own class, and the line ends as its last token does. -/
theorem decodedLinesAreWellFormed : Obligations.DecodedLinesAreWellFormed := by
  intro raw i h
  obtain ⟨hcolon, mn, toks, hsplit, rfl⟩ := readLine_eq_instr (decode_eq_ok.mp h)
  have htok : ∀ t ∈ mn :: toks, t ≠ [] ∧ t.all isTokenChar = true := hsplit ▸ fun t ht =>
    ⟨(token_of_mem_split ht).1, isTokenChar_of_mem_split ht⟩
  obtain ⟨hmn, htoks⟩ := List.forall_mem_cons.mp htok
  obtain ⟨u, hu⟩ : ∃ u, (mn :: toks).getLast? = some u := ⟨_, List.getLast?_eq_some_getLast (List.cons_ne_nil mn toks)⟩
  have hlast : endsInColon u = false := by
    rw [endsInColon, getLast?_split (fun c hc => not_isSpace_ends_clean (.inr hc)) (hsplit ▸ hu)]
    exact hcolon
  have hops : (toks.map Operand.ofToken).all Operand.wellFormed = true := by
    simpa using fun t ht => Operand.wellFormed_ofToken (htoks t ht).1 (htoks t ht).2
  rw [Instr.wellFormed, Instr.mnemonic_make, Instr.operands_make, Mnemonic.wellFormed_ofToken hmn.1 hmn.2, hops,
    notLabel_make hu hlast]
  rfl

end Sys2Proof
end

section
/-! PROOFS. The sequencer of spec/42_two_pass_sequencer.md, one line or one transition at a time: what a step does at each kind of line and at the
end of each pass, and what an abort keeps. -/

namespace Sys2Proof.Machine

/-! ### The kinds of lines -/

theorem exec_labels {s : State} (hp : s.pass = .labels) (i : Instr) : exec i s = .next s.countLine := by
  rw [meaningsFollowTheAlgorithm i s, instrLine, hp]

/-- An instruction counts in pass 1, and settles the block's answer in pass 2 (R156, R157). -/
theorem exec_next_settle {i : Instr} {s t : State} (h : exec i s = .next t) : (s.pass = .labels ∧ t = s.countLine) ∨
    (s.pass = .emit ∧ s.outAddr < Config.depth ∧ t = s.settle (encodeInstr tables i.mnemonic i.operands s.pc s.lt)) :=
  instrLine_next (meaningsFollowTheAlgorithm i s ▸ h)

section
variable {s : State} {raw n : Text} {i : Instr} (hp : s.pass = .labels ∨ s.pass = .emit) (ha : admitted s.src)
include hp ha

theorem step_blank (hc : s.currentLine = some raw) (hl : readLine raw = .blank) : step s = .next s.skipLine := by
  simp only [step_at hp ha hc, hl]

theorem step_label (hc : s.currentLine = some raw) (hl : readLine raw = .label n) : step s = labelLine n s := by
  simp only [step_at hp ha hc, hl]

theorem step_instr (hc : s.currentLine = some raw) (hl : readLine raw = .instr i) : step s = exec i s := by
  simp only [step_at hp ha hc, hl]

/-- Past the last line a step ends the pass (R158, R159). -/
theorem step_pastEnd (h : s.src.length < s.lineNo) : step s = endOfPass s := by
  have hs : s.stopped = none := stopped_eq_none.mpr ⟨hp, by omega⟩
  have hc : s.currentLine = none := currentLine_eq_none.mpr (.inr (by omega))
  simp only [step_eq hs (sourceRefusal_eq_none.mpr ha), hc]

end

/-! ### Label declarations -/

theorem labelLine_emit {s : State} (hp : s.pass = .emit) (n : Text) : labelLine n s = .next s.skipLine := by
  rw [labelLine, hp]

section
variable {s : State} {n : Text} (hp : s.pass = .labels)
include hp

theorem labelLine_short (hlen : n.length < Config.minLabelLen) :
    labelLine n s = .next (s.abort (.shortLabelError n)) := by
  rw [labelLine, hp]
  exact if_pos hlen

theorem labelLine_duplicate (hlen : Config.minLabelLen ≤ n.length) (hdup : s.lt.has n = true) :
    labelLine n s = .next (s.abort (.duplicateLabelError n)) := by
  rw [labelLine, hp]
  exact (if_neg (by omega)).trans (if_pos hdup)

theorem labelLine_new (hlen : Config.minLabelLen ≤ n.length) (hnew : s.lt.has n = false) :
    labelLine n s = .next (s.declare n) := by
  rw [labelLine, hp]
  exact (if_neg (by omega)).trans (if_neg (by simp [hnew]))

end

/-! ### The ends of the passes -/

theorem endOfPass_labels {s : State} (hp : s.pass = .labels) : endOfPass s = .next s.beginEmit := by
  rw [endOfPass, hp]

theorem endOfPass_emit {s : State} (hp : s.pass = .emit) (ha : s.outAddr < Config.depth) :
    endOfPass s = .next s.finish := by
  rw [endOfPass, hp]
  exact if_pos ha

/-- No state of a run in pass 2 stands above the image (R52, R161 b). -/
theorem State.RunInv.outAddr_lt {s : State} (inv : s.RunInv) (hp : s.pass = .emit) : s.outAddr < Config.depth :=
  Nat.lt_of_not_le fun hle => inv.not_atImageEnd ⟨hp, hle⟩

/-- The end of pass 2 in a state of a run is never refused (R159). -/
theorem State.RunInv.step_finish {s : State} (inv : s.RunInv) (hp : s.pass = .emit) (h : s.src.length < s.lineNo) :
    step s = .next s.finish := by
  rw [step_pastEnd (.inr hp) (inv.sourceAdmitted (by simp [hp])) h, endOfPass_emit hp (inv.outAddr_lt hp)]

theorem step_of_stopped {s : State} {f : Fault} (h : s.stopped = some f) : step s = .fault f := by
  rw [step, h]

/-! ### The statements about steps -/

/-- Settles O1: a line that decodes is an instruction line. -/
theorem stepRunsDecodedLine : Obligations.StepRunsDecodedLine := fun _ _ _ hp hne ha hraw hd =>
  step_instr hp ha (currentLine_eq_some.mpr ⟨hne, hraw⟩) (decode_eq_ok.mp hd)

/-- Settles O37: no meaning looks at its operands in pass 1. -/
theorem passOneCountsInstructionLines : Obligations.PassOneCountsInstructionLines := fun i _ hp => exec_labels hp i

/-- Settles O38: the instruction of the line is made of its tokens, and its meaning is the block's algorithm. -/
theorem passTwoCallsTheBlock : Obligations.PassTwoCallsTheBlock := by
  intro s raw mn toks hp hout ha hc hcolon hsplit
  have hblock : encodeInstr tables (Instr.make (Mnemonic.ofToken mn) (toks.map Operand.ofToken)).mnemonic
      (Instr.make (Mnemonic.ofToken mn) (toks.map Operand.ofToken)).operands s.pc s.lt = encodeTokens tables mn toks s.pc s.lt := by
    rw [Instr.mnemonic_make, Instr.operands_make, encodeTokens]
  rw [step_instr (.inr hp) ha hc (readLine_of_split hcolon hsplit), exec_emit hp hout hblock]
  cases encodeTokens tables mn toks s.pc s.lt with
  | ok w => rfl
  | error e => rw [State.settle_error, abort_of_currentLine hc]

/-- Settles O39, one clause for each outcome of the declaration. -/
theorem labelDeclarationInPassOne : Obligations.LabelDeclarationInPassOne := by
  intro s raw n hp ha hc hl
  rw [step_label (.inl hp) ha hc hl]
  refine ⟨fun hlen => ?_, fun hlen hdup => ?_, fun hlen hnew => ⟨s.declare n, labelLine_new hp hlen hnew, rfl, fun m => ?_⟩⟩
  · rw [labelLine_short hp hlen, abort_of_currentLine hc]
  · rw [labelLine_duplicate hp hlen hdup, abort_of_currentLine hc]
  · simp [LabelTable.get_insert, hnew]

/-- Settles O40: in pass 2 the declaration's name is not looked at. -/
theorem labelDeclarationInPassTwo : Obligations.LabelDeclarationInPassTwo := fun _ _ n hp ha hc hl =>
  (step_label (.inr hp) ha hc hl).trans (labelLine_emit hp n)

/-- Settles O41: an empty cleaned text is a blank line, which both passes skip. -/
theorem blankLinesAreSkipped : Obligations.BlankLinesAreSkipped := fun _ _ hp ha hc hclean =>
  step_blank hp ha hc (readLine_of_clean_nil hclean)

/-- Settles O42: no line is left to read. -/
theorem passTransition : Obligations.PassTransition := fun _ hp ha hend =>
  (step_pastEnd (.inl hp) ha (by omega)).trans (endOfPass_labels hp)

/-- Settles O43: below `out_addr` every address has its record, which the fill does not replace, and from there on none has one. -/
theorem endOfSuccessfulRun : Obligations.EndOfSuccessfulRun := by
  intro s inv hp hend
  refine ⟨s.finish, inv.step_finish hp (by omega), rfl, rfl, rfl, fun a hle h255 => ?_, fun a hlt => ?_⟩
  · rw [State.image_of_done rfl, Memory.read_of_forall_ne fun r hr => by have := inv.addr_lt hr; omega]
    exact if_pos ⟨rfl, Nat.lt_succ_of_le h255⟩
  · obtain ⟨r, hr, rfl⟩ := inv.exists_record hlt
    rw [State.image_of_done rfl, Memory.read_of_mem inv.imgWf hr]
    exact Memory.read_of_mem (m := s.finish.img) inv.imgWf hr

/-- Settles O44: the sequencer is stopped, and every instruction looks at the pass first. -/
theorem nothingFollowsTheEnd : Obligations.NothingFollowsTheEnd := by
  intro s i
  rw [meaningsFollowTheAlgorithm i s]
  refine ⟨fun hp => ⟨step_of_stopped ?_, ?_⟩, fun hp => ⟨step_of_stopped ?_, ?_⟩⟩
  · rw [State.stopped, hp]
  · rw [instrLine, hp]
  · rw [State.stopped, hp]
  · rw [instrLine, hp]

/-- The errors each pass can raise (R161 c, R193). -/
def RaisedIn (p : Pass) (e : ErrorInfo) : Prop :=
  (p = .labels → ∃ n, e = .shortLabelError n ∨ e = .duplicateLabelError n) ∧ (p = .emit → statusCode (some e) ≤ 5)

theorem raisedIn_labels {n : Text} {e : ErrorInfo} (h : e = .shortLabelError n ∨ e = .duplicateLabelError n) :
    RaisedIn .labels e :=
  ⟨fun _ => ⟨n, h⟩, nofun⟩

/-- A declaration aborts in pass 1 only, with one of its two errors (R154). -/
theorem labelLine_aborted {n : Text} {s t : State} (h : labelLine n s = .next t) (ht : t.pass = .aborted) :
    ∃ e, t = s.abort e ∧ RaisedIn s.pass e := by
  obtain ⟨hp, ⟨-, rfl⟩ | ⟨-, -, rfl⟩ | ⟨-, -, rfl⟩⟩ | ⟨hp, rfl⟩ := labelLine_next h
  · exact ⟨_, rfl, hp ▸ raisedIn_labels (.inl rfl)⟩
  · exact ⟨_, rfl, hp ▸ raisedIn_labels (.inr rfl)⟩
  · simp [hp] at ht
  · simp [hp] at ht

/-- An instruction aborts in pass 2 only, with the error of the block (R157). -/
theorem exec_aborted {i : Instr} {s t : State} (h : exec i s = .next t) (ht : t.pass = .aborted) :
    ∃ e, t = s.abort e ∧ RaisedIn s.pass e := by
  obtain ⟨hp, rfl⟩ | ⟨hp, -, rfl⟩ := exec_next_settle h
  · simp [hp] at ht
  · cases hw : encodeInstr tables i.mnemonic i.operands s.pc s.lt with
    | ok w => simp [hw, hp] at ht
    | error e => exact ⟨e, rfl, by simp [hp], fun _ => (encodeInstr_error_status hw).2⟩

theorem endOfPass_not_aborted {s t : State} (h : endOfPass s = .next t) : t.pass ≠ .aborted := by
  obtain ⟨-, rfl⟩ | ⟨-, -, rfl⟩ := endOfPass_next h <;> simp

/-- Settles O46: only a declaration and an instruction abort. -/
theorem abortKeepsEverythingElse : Obligations.AbortKeepsEverythingElse := by
  intro s t h ht
  obtain ⟨hs, -, ⟨raw, hc, hline⟩ | ⟨-, hend⟩⟩ := step_next h
  · obtain ⟨e, rfl, he⟩ : ∃ e, t = s.abort e ∧ RaisedIn s.pass e := by
      obtain ⟨-, rfl⟩ | ⟨n, -, hn⟩ | ⟨i, -, hi⟩ := hline
      · obtain ⟨hp | hp, -⟩ := stopped_eq_none.mp hs <;> simp [hp] at ht
      · exact labelLine_aborted hn ht
      · exact exec_aborted hi ht
    exact ⟨raw, e, hc, abort_of_currentLine hc e, he⟩
  · exact absurd ht (endOfPass_not_aborted hend)

end Sys2Proof.Machine
end

section
/-! PROOFS. The invariant of a run (spec/42_two_pass_sequencer.md R161): each move of the sequencer keeps it, so every step does. -/

namespace Sys2Proof.Machine

/-! ### The lines handled -/

theorem instrCount_append (a b : List Text) : instrCount (a ++ b) = instrCount a + instrCount b := by
  simp [instrCount, instrs_append]

section
variable {s : State} {raw : Text} (hc : s.currentLine = some raw)
include hc

theorem next_lineRange : 1 ≤ s.lineNo + 1 ∧ s.lineNo + 1 ≤ s.src.length + 1 := by
  obtain ⟨-, hraw⟩ := currentLine_eq_some.mp hc
  obtain ⟨hlt, -⟩ := List.getElem?_eq_some_iff.mp hraw
  omega

/-- Past the current line one more line is handled. -/
theorem take_next : s.src.take (s.lineNo + 1 - 1) = s.src.take (s.lineNo - 1) ++ [raw] := by
  obtain ⟨hne, hraw⟩ := currentLine_eq_some.mp hc
  rw [show s.lineNo + 1 - 1 = s.lineNo - 1 + 1 by omega, List.take_add_one, hraw]
  rfl

/-- The lines from the current one on (R40). -/
theorem drop_current : s.src.drop (s.lineNo - 1) = raw :: s.src.drop (s.lineNo + 1 - 1) := by
  obtain ⟨hne, hraw⟩ := currentLine_eq_some.mp hc
  obtain ⟨hlt, heq⟩ := List.getElem?_eq_some_iff.mp hraw
  rw [List.drop_eq_getElem_cons hlt, heq, show s.lineNo - 1 + 1 = s.lineNo + 1 - 1 by omega]

theorem mem_src_of_currentLine : raw ∈ s.src :=
  List.mem_of_getElem? (currentLine_eq_some.mp hc).2

/-- The slot of the current instruction line is the number of instruction lines before it (R161 a). -/
theorem instrs_getElem?_current {i : Instr} (hl : readLine raw = .instr i) :
    (instrs s.src)[instrCount (s.src.take (s.lineNo - 1))]? = some i := by
  have hsplit : instrs s.src = instrs (s.src.take (s.lineNo - 1)) ++ i :: instrs (s.src.drop (s.lineNo + 1 - 1)) := by
    rw [← List.take_append_drop (s.lineNo - 1) s.src, instrs_append, List.take_append_drop, drop_current hc, instrs, hl]
  simp [hsplit, instrCount]

end

theorem labelLines_of_labels {s : State} (hp : s.pass = .labels) : s.labelLines = s.src.take (s.lineNo - 1) := by
  rw [State.labelLines, hp]

theorem labelLines_of_ne_labels {s : State} (hp : s.pass ≠ .labels) : s.labelLines = s.src := by
  rw [State.labelLines]
  cases h : s.pass <;> simp_all

/-- Past the last line every line is handled (R26). -/
theorem State.RunInv.take_eq_src {s : State} (inv : s.RunInv) (hc : s.currentLine = none) :
    s.src.take (s.lineNo - 1) = s.src := by
  obtain ⟨hpos, -⟩ := inv.lineRange
  obtain h | h := currentLine_eq_none.mp hc
  · omega
  · exact List.take_of_length_le h

/-! ### What the current line adds -/

/-- Nothing is written in pass 1 (R33). -/
theorem State.RunInv.records_eq_nil {s : State} (inv : s.RunInv) (hp : s.pass = .labels) : s.img.records = [] := by
  have h := inv.addresses
  rwa [inv.labelsEmpty hp, List.range_zero, List.map_eq_nil_iff] at h

theorem State.RunInv.pc_next {s : State} (inv : s.RunInv) (hp : s.pass = .labels ∨ s.pass = .emit) {raw : Text}
    (hc : s.currentLine = some raw) : instrCount (s.src.take (s.lineNo + 1 - 1)) = s.pc + instrCount [raw] := by
  rw [take_next hc, instrCount_append, inv.pcCounts hp]

/-- In pass 1 the declarations handled gain those of the current line, which stand at `pc` (R154). -/
theorem State.RunInv.declared_next {s : State} (inv : s.RunInv) (hp : s.pass = .labels) {raw : Text}
    (hc : s.currentLine = some raw) :
    declared (s.src.take (s.lineNo + 1 - 1)) 0 = declared s.labelLines 0 ++ declared [raw] s.pc := by
  rw [take_next hc, declared_append, labelLines_of_labels hp, Nat.zero_add, ← inv.pcCounts (.inl hp)]

/-- A declared name of a source that has a run holds no white space (R153). -/
theorem not_isSpace_of_declared {src : List Text} (ha : admitted src) {raw n : Text} (hraw : raw ∈ src)
    (hl : readLine raw = .label n) : n.any isSpace = false :=
  (declared_names_iff src 0 (fun n => n.any isSpace = false)).mp ha.2 raw hraw n hl

/-- The block's words have at least 16 bits (R65). -/
theorem wWord_le_length {T : Tables} {mn : Mnemonic} {ops : List Operand} {pc : Nat} {lt : LabelTable} {w : Bits}
    (h : encodeInstr T mn ops pc lt = .ok w) : Config.wWord ≤ w.length := by
  obtain ⟨code, fs, -, -, rfl⟩ := encodeInstr_eq_ok.mp h
  rw [pad16_length]
  exact le_max_left _ _

/-! ### The moves, one by one -/

/-- A line that neither counts nor, in pass 1, declares is passed over (R152, R155). -/
theorem State.RunInv.skipLine {s : State} (inv : s.RunInv) (hp : s.pass = .labels ∨ s.pass = .emit) {raw : Text}
    (hc : s.currentLine = some raw) (hcount : instrCount [raw] = 0) (hdecl : s.pass = .labels → declared [raw] s.pc = []) :
    s.skipLine.RunInv :=
  have hlines : declared s.skipLine.labelLines 0 = declared s.labelLines 0 := by
    obtain hl | he := hp
    · rw [labelLines_of_labels (s := s.skipLine) hl]
      exact (inv.declared_next hl hc).trans (by rw [hdecl hl, List.append_nil])
    · rw [labelLines_of_ne_labels (s := s.skipLine) (by simp [he]), labelLines_of_ne_labels (s := s) (by simp [he])]
      rfl
  { inv with
    lineRange := next_lineRange hc
    pcCounts := fun _ => by simpa [hcount] using (inv.pc_next hp hc).symm
    ltMeaning := fun hne => hlines ▸ inv.ltMeaning hne }

theorem State.RunInv.countLine {s : State} (inv : s.RunInv) (hp : s.pass = .labels) {raw : Text} {i : Instr}
    (hc : s.currentLine = some raw) (hl : readLine raw = .instr i) : s.countLine.RunInv :=
  have hlines : declared s.countLine.labelLines 0 = declared s.labelLines 0 := by
    rw [labelLines_of_labels (s := s.countLine) hp]
    exact (inv.declared_next hp hc).trans (by simp [declared, hl])
  { inv with
    lineRange := next_lineRange hc
    pcCounts := fun _ => by simpa [instrCount, instrs, hl] using (inv.pc_next (.inl hp) hc).symm
    emitSame := by simp [hp]
    ltMeaning := fun hne => hlines ▸ inv.ltMeaning hne }

/-- The table's new entry is the declaration of the line, at the number of instruction lines before it (R154, R161 a). -/
theorem State.RunInv.get_insert_iff {s : State} (inv : s.RunInv) (hp : s.pass = .labels) {n : Text}
    (hnew : s.lt.has n = false) (m : Text) (a : Nat) :
    (s.lt.insert n s.pc).get m = some a ↔ (m, a) ∈ declared s.labelLines 0 ++ [(n, s.pc)] := by
  rw [LabelTable.get_insert, List.mem_append, ← inv.ltMeaning (by simp [hp]), List.mem_singleton, Prod.mk.injEq]
  by_cases hm : m = n
  · have hnone : s.lt.get m = none := by simpa [LabelTable.has, hm] using hnew
    simp [hm, hnew, hm ▸ hnone, eq_comm]
  · simp [hm]

theorem State.RunInv.declare {s : State} (inv : s.RunInv) (hp : s.pass = .labels) (ha : admitted s.src) {raw n : Text}
    (hc : s.currentLine = some raw) (hl : readLine raw = .label n) (hlen : Config.minLabelLen ≤ n.length)
    (hnew : s.lt.has n = false) : (s.declare n).RunInv :=
  have hlines : declared (s.declare n).labelLines 0 = declared s.labelLines 0 ++ [(n, s.pc)] := by
    rw [labelLines_of_labels (s := s.declare n) hp]
    exact (inv.declared_next hp hc).trans (by simp [declared, hl])
  { inv with
    ltWf := LabelTable.wf_insert inv.ltWf n s.pc
    lineRange := next_lineRange hc
    pcCounts := fun _ => by simpa [instrCount, instrs, hl] using (inv.pc_next (.inl hp) hc).symm
    recordsMean := by simp [inv.records_eq_nil hp]
    ltMeaning := fun _ m a => hlines ▸ inv.get_insert_iff hp hnew m a
    ltNames := fun e he => by
      obtain rfl | he := LabelTable.mem_insert he
      · exact ⟨hlen, not_isSpace_of_declared ha (mem_src_of_currentLine hc) hl⟩
      · exact inv.ltNames e he }

/-- In a run a record is written above all others (R45). -/
theorem State.RunInv.emit_records {s : State} (inv : s.RunInv) (w : Bits) :
    (s.emit w).img.records = s.img.records ++ [⟨s.outAddr, w⟩] :=
  putRecord_append w fun _ hr => inv.addr_lt hr

/-- The record written is the word of the current instruction, whose slot is `pc`, which is `out_addr` (R157, R161 b). -/
theorem State.RunInv.emit {s : State} (inv : s.RunInv) (hp : s.pass = .emit) (hout : s.outAddr < Config.depth) {raw : Text}
    {i : Instr} (hc : s.currentLine = some raw) (hl : readLine raw = .instr i) {w : Bits}
    (hw : encodeInstr tables i.mnemonic i.operands s.pc s.lt = .ok w) : (s.emit w).RunInv :=
  have hpc : s.pc = s.outAddr := inv.emitSame (.inl hp)
  have hslot : (instrs s.src)[s.outAddr]? = some i := by
    rw [← hpc, inv.pcCounts (.inr hp)]
    exact instrs_getElem?_current hc hl
  { inv with
    imgWf := Memory.wf_write inv.imgWf hout w
    lineRange := next_lineRange hc
    addresses := by rw [inv.emit_records w, List.map_append, inv.addresses, State.emit_outAddr, List.range_succ]; rfl
    wordLength := by
      rw [inv.emit_records w, List.forall_mem_append, List.forall_mem_singleton]
      exact ⟨inv.wordLength, wWord_le_length hw⟩
    pcCounts := fun _ => by simpa [instrCount, instrs, hl] using (inv.pc_next (.inr hp) hc).symm
    labelsEmpty := by simp [hp]
    emitSame := fun _ => congrArg (· + 1) hpc
    doneCount := by simp [hp]
    recordsMean := by
      rw [inv.emit_records w, List.forall_mem_append, List.forall_mem_singleton]
      exact ⟨inv.recordsMean, i, hslot, hpc ▸ hw⟩
    ltMeaning := fun hne => by
      rw [labelLines_of_ne_labels (s := s.emit w) (by simp [hp])]
      exact labelLines_of_ne_labels (s := s) (by simp [hp]) ▸ inv.ltMeaning hne }

/-- An abort leaves the clauses that name another pass without a state to speak of (R160). -/
theorem State.RunInv.abort {s : State} (inv : s.RunInv) (hp : s.pass = .labels ∨ s.pass = .emit) (ha : admitted s.src)
    (e : ErrorInfo) : (s.abort e).RunInv :=
  { inv with
    pcCounts := by simp
    labelsEmpty := by simp
    emitSame := by simp
    doneCount := by simp
    ltMeaning := by simp
    marks := by obtain hp | hp := hp <;> simpa [hp] using inv.marks
    sourceAdmitted := fun _ => ha
    reported := by simp }

theorem State.RunInv.beginEmit {s : State} (inv : s.RunInv) (hp : s.pass = .labels) (ha : admitted s.src)
    (hc : s.currentLine = none) : s.beginEmit.RunInv :=
  { inv with
    lineRange := by simp
    pcCounts := fun _ => by simp [instrCount, instrs]
    labelsEmpty := by simp
    emitSame := fun _ => (inv.labelsEmpty hp).symm
    doneCount := by simp
    ltMeaning := fun _ => by
      have h := inv.ltMeaning (by simp [hp])
      rwa [labelLines_of_labels hp, inv.take_eq_src hc] at h
    marks := by simpa [hp] using inv.marks
    sourceAdmitted := fun _ => ha
    reported := by simpa [hp] using inv.reported }

theorem State.RunInv.finish {s : State} (inv : s.RunInv) (hp : s.pass = .emit) (hc : s.currentLine = none) :
    s.finish.RunInv :=
  { inv with
    pcCounts := by simp
    labelsEmpty := by simp
    emitSame := fun _ => inv.emitSame (.inl hp)
    doneCount := fun _ => by
      have h := inv.pcCounts (.inr hp)
      rwa [inv.take_eq_src hc, inv.emitSame (.inl hp)] at h
    ltMeaning := fun _ => by
      have h := inv.ltMeaning (by simp [hp])
      rwa [labelLines_of_ne_labels (by simp [hp])] at h
    marks := by simp
    sourceAdmitted := fun _ => inv.sourceAdmitted (by simp [hp])
    reported := by simpa [hp] using inv.reported }

/-! ### Every step keeps the invariant -/

section
variable {s t : State} (inv : s.RunInv) (ha : admitted s.src)
include inv ha

theorem State.RunInv.of_labelLine {raw n : Text} (hc : s.currentLine = some raw) (hl : readLine raw = .label n)
    (h : labelLine n s = .next t) : t.RunInv := by
  obtain ⟨hp, ⟨-, rfl⟩ | ⟨-, -, rfl⟩ | ⟨hlen, hnew, rfl⟩⟩ | ⟨hp, rfl⟩ := labelLine_next h
  · exact inv.abort (.inl hp) ha _
  · exact inv.abort (.inl hp) ha _
  · exact inv.declare hp ha hc hl hlen hnew
  · exact inv.skipLine (.inr hp) hc (by simp [instrCount, instrs, hl]) (by simp [hp])

theorem State.RunInv.of_exec {raw : Text} {i : Instr} (hc : s.currentLine = some raw) (hl : readLine raw = .instr i)
    (h : exec i s = .next t) : t.RunInv := by
  obtain ⟨hp, rfl⟩ | ⟨hp, hout, rfl⟩ := exec_next_settle h
  · exact inv.countLine hp hc hl
  · cases hw : encodeInstr tables i.mnemonic i.operands s.pc s.lt with
    | ok w => exact inv.emit hp hout hc hl hw
    | error e => exact inv.abort (.inr hp) ha e

theorem State.RunInv.of_endOfPass (hc : s.currentLine = none) (h : endOfPass s = .next t) : t.RunInv := by
  obtain ⟨hp, rfl⟩ | ⟨hp, -, rfl⟩ := endOfPass_next h
  · exact inv.beginEmit hp ha hc
  · exact inv.finish hp hc

end

/-- Settles O54, line by line as a step reads them. -/
theorem runInvariantKept : Obligations.RunInvariantKept := by
  intro s t inv h
  obtain ⟨hs, hr, ⟨raw, hc, ⟨hl, rfl⟩ | ⟨n, hl, h⟩ | ⟨i, hl, h⟩⟩ | ⟨hc, h⟩⟩ := step_next h
  · exact inv.skipLine (stopped_eq_none.mp hs).1 hc (by simp [instrCount, instrs, hl]) fun _ => by simp [declared, hl]
  · exact inv.of_labelLine (sourceRefusal_eq_none.mp hr) hc hl h
  · exact inv.of_exec (sourceRefusal_eq_none.mp hr) hc hl h
  · exact inv.of_endOfPass (sourceRefusal_eq_none.mp hr) hc h

end Sys2Proof.Machine
end

section
/-! PROOFS. The stepping machine against the whole run as spec/42_two_pass_sequencer.md R165 writes it: each loop over the lines, from the state in
which it stands, is followed step by step. -/

namespace Sys2Proof.Machine

/-! ### Runs of steps -/

theorem run_of_next {M : Host.Core} {s s' : M.State} (h : M.step s = .next s') (k : Nat) : M.run (k + 1) s = M.run k s' := by
  rw [Host.Core.run, h]

theorem run_of_refused {M : Host.Core} {s : M.State} {r : M.Refusal} (h : M.step s = .refused r) (k : Nat) :
    M.run (k + 1) s = .refused r := by
  rw [Host.Core.run, h]

/-- What it means that the machine, started in `s`, reaches an end of R165 within `n` steps. -/
def RunEnd.ReachedWithin (n : Nat) (s : State) : RunEnd → Prop
  | .done lt img => ∃ k ≤ n, ∃ t : State, Host.Core.run core k s = .next t ∧ t.pass = .done ∧ t.lt = lt ∧ t.img = img
  | .aborted rep records => ∃ k ≤ n, ∃ t : State,
      Host.Core.run core k s = .next t ∧ t.pass = .aborted ∧ t.report = some rep ∧ t.img.records = records
  | .refused r => ∃ k ≤ n, Host.Core.run core k s = .refused r

/-- An end reached from the next state is reached one step later. -/
theorem RunEnd.ReachedWithin.of_step {e : RunEnd} {n : Nat} {s s' : State} (h : step s = .next s')
    (he : e.ReachedWithin n s') : e.ReachedWithin (n + 1) s := by
  cases e with
  | done lt img =>
    obtain ⟨k, hk, t, hrun, ht⟩ := he
    exact ⟨k + 1, Nat.succ_le_succ hk, t, (run_of_next (M := core) h k).trans hrun, ht⟩
  | aborted rep records =>
    obtain ⟨k, hk, t, hrun, ht⟩ := he
    exact ⟨k + 1, Nat.succ_le_succ hk, t, (run_of_next (M := core) h k).trans hrun, ht⟩
  | refused r =>
    obtain ⟨k, hk, hrun⟩ := he
    exact ⟨k + 1, Nat.succ_le_succ hk, (run_of_next (M := core) h k).trans hrun⟩

theorem reachedWithin_of_done {s : State} (hp : s.pass = .done) (n : Nat) : (RunEnd.done s.lt s.img).ReachedWithin n s :=
  ⟨0, n.zero_le, s, rfl, hp, rfl, rfl⟩

/-- The step that aborts ends the run, with the line's report and the records there are (R160). -/
theorem reachedWithin_of_abort {s : State} {raw : Text} {e : ErrorInfo} (hc : s.currentLine = some raw)
    (h : step s = .next (s.abort e)) (n : Nat) :
    (RunEnd.aborted ⟨e, s.lineNo, raw⟩ s.img.records).ReachedWithin (n + 1) s := by
  refine .of_step h ⟨0, n.zero_le, s.abort e, rfl, rfl, ?_, rfl⟩
  rw [abort_of_currentLine hc]

theorem reachedWithin_of_refused {s : State} {r : Refusal} (h : step s = .refused r) (n : Nat) :
    (RunEnd.refused r).ReachedWithin (n + 1) s :=
  ⟨1, Nat.succ_le_succ n.zero_le, run_of_refused (M := core) h 0⟩

/-! ### The lines left -/

section
variable {s : State} (hpos : s.lineNo ≠ 0)
include hpos

theorem currentLine_of_drop {raw : Text} {rest : List Text} (h : s.src.drop (s.lineNo - 1) = raw :: rest) :
    s.currentLine = some raw := by
  refine currentLine_eq_some.mpr ⟨hpos, ?_⟩
  rw [← List.head?_drop, h]
  rfl

theorem lineNo_gt_of_drop_nil (h : s.src.drop (s.lineNo - 1) = []) : s.src.length < s.lineNo := by
  have := List.drop_eq_nil_iff.mp h
  omega

end

theorem drop_next {s : State} {raw : Text} {rest : List Text} (hc : s.currentLine = some raw)
    (h : s.src.drop (s.lineNo - 1) = raw :: rest) : s.src.drop (s.lineNo + 1 - 1) = rest :=
  (List.cons.inj ((drop_current hc).symm.trans h)).2

/-! ### The second loop -/

theorem State.RunInv.lineNo_ne_zero {s : State} (inv : s.RunInv) : s.lineNo ≠ 0 :=
  Nat.one_le_iff_ne_zero.mp inv.lineRange.1

/-- From a state of pass 2, with the lines `rest` left, the machine ends as the second loop of R165 does. -/
theorem runEmit_reached {rest : List Text} {s : State} (inv : s.RunInv) (hp : s.pass = .emit)
    (hrest : s.src.drop (s.lineNo - 1) = rest) :
    (runEmit tables s.lt rest s.lineNo s.pc s.outAddr s.img.records).ReachedWithin (rest.length + 1) s := by
  induction rest generalizing s with
  | nil => exact .of_step (inv.step_finish hp (lineNo_gt_of_drop_nil inv.lineNo_ne_zero hrest)) (reachedWithin_of_done rfl _)
  | cons raw rest ih =>
    have ha : admitted s.src := inv.sourceAdmitted (by simp [hp])
    have hc := currentLine_of_drop inv.lineNo_ne_zero hrest
    have hnext := drop_next hc hrest
    have hskip (h : step s = .next s.skipLine) :
        (runEmit tables s.lt rest (s.lineNo + 1) s.pc s.outAddr s.img.records).ReachedWithin (rest.length + 1 + 1) s :=
      .of_step h (ih (runInvariantKept s _ inv h) hp hnext)
    cases hl : readLine raw with
    | blank =>
      rw [runEmit, hl]
      exact hskip (step_blank (.inr hp) ha hc hl)
    | label n =>
      rw [runEmit, hl]
      exact hskip ((step_label (.inr hp) ha hc hl).trans (labelLine_emit hp n))
    | instr i =>
      have h := (step_instr (.inr hp) ha hc hl).trans (exec_emit hp (inv.outAddr_lt hp) rfl)
      cases hw : encodeInstr tables i.mnemonic i.operands s.pc s.lt with
      | ok w =>
        rw [hw, State.settle_ok] at h
        have hrun := ih (runInvariantKept s _ inv h) hp hnext
        rw [inv.emit_records] at hrun
        simp only [runEmit, hl, hw]
        exact hrun.of_step h
      | error e =>
        rw [hw, State.settle_error] at h
        simp only [runEmit, hl, hw]
        exact reachedWithin_of_abort hc h _

/-! ### The first loop -/

/-- The run of R165 after its first loop has ended. -/
def LabelsEnd.thenEmit (T : Tables) (src : List Text) : LabelsEnd → RunEnd
  | .complete lt => runEmit T lt src 1 0 0 []
  | .ended report => .aborted report []

theorem runSource_of_admitted {T : Tables} {src : List Text} (ha : admitted src) :
    runSource T src = (runLabels src 1 0 []).thenEmit T src := by
  rw [runSource, sourceRefusal_eq_none.mpr ha]
  cases runLabels src 1 0 [] <;> rfl

/-- From a state of pass 1, with the lines `rest` left, the machine ends as the first loop of R165 and what follows it do. -/
theorem runLabels_reached {rest : List Text} {s : State} (inv : s.RunInv) (hp : s.pass = .labels) (ha : admitted s.src)
    (hrest : s.src.drop (s.lineNo - 1) = rest) :
    ((runLabels rest s.lineNo s.pc s.lt).thenEmit tables s.src).ReachedWithin (s.src.length + 2 + rest.length) s := by
  induction rest generalizing s with
  | nil =>
    have h := (step_pastEnd (.inl hp) ha (lineNo_gt_of_drop_nil inv.lineNo_ne_zero hrest)).trans (endOfPass_labels hp)
    have hrun := runEmit_reached (runInvariantKept s _ inv h) rfl rfl
    rw [State.beginEmit_outAddr, State.beginEmit_img, inv.labelsEmpty hp, inv.records_eq_nil hp] at hrun
    exact hrun.of_step h
  | cons raw rest ih =>
    have hc := currentLine_of_drop inv.lineNo_ne_zero hrest
    have hnext := drop_next hc hrest
    have habort {e : ErrorInfo} (h : step s = .next (s.abort e)) :
        (RunEnd.aborted ⟨e, s.lineNo, raw⟩ []).ReachedWithin (s.src.length + 2 + (raw :: rest).length) s :=
      inv.records_eq_nil hp ▸ reachedWithin_of_abort hc h _
    cases hl : readLine raw with
    | blank =>
      have h := step_blank (.inl hp) ha hc hl
      rw [runLabels, hl]
      exact (ih (runInvariantKept s _ inv h) hp ha hnext).of_step h
    | instr i =>
      have h := (step_instr (.inl hp) ha hc hl).trans (exec_labels hp i)
      rw [runLabels, hl]
      exact (ih (runInvariantKept s _ inv h) hp ha hnext).of_step h
    | label n =>
      have h := step_label (.inl hp) ha hc hl
      simp only [runLabels, hl]
      split_ifs with hlen hdup
      · exact habort (h.trans (labelLine_short hp hlen))
      · exact habort (h.trans (labelLine_duplicate hp (Nat.le_of_not_lt hlen) hdup))
      · have h' := h.trans (labelLine_new hp (Nat.le_of_not_lt hlen) (Bool.eq_false_iff.mpr hdup))
        exact (ih (runInvariantKept s _ inv h') hp ha hnext).of_step h'

/-- Settles O58: the run of an admitted source starts in the first loop; any other source is refused at the first step. -/
theorem runMatchesPseudocode : Obligations.RunMatchesPseudocode := by
  intro src
  change (runSource tables src).ReachedWithin (2 * src.length + 2) (State.load src)
  cases hr : sourceRefusal src with
  | some r =>
    rw [runSource_eq_refused.mpr hr]
    exact reachedWithin_of_refused (step_of_sourceRefusal (stopped_eq_none.mpr ⟨.inl rfl, one_ne_zero⟩) hr) _
  | none =>
    have ha : admitted src := sourceRefusal_eq_none.mp hr
    have h := runLabels_reached (load_runInv src) rfl ha rfl
    rw [runSource_of_admitted ha]
    rwa [show 2 * src.length + 2 = src.length + 2 + src.length by omega]

end Sys2Proof.Machine
end

section
/-! PROOFS. The errors of spec/60_exceptions.md: the mnemonic, the count and the leftmost failing operand (R181, R182, R190), and the source
that cannot be opened (R188). -/

namespace Sys2Proof.Machine

/-! ### The block's errors -/

/-- The operands before `o` have fields and `o` has none: what stands after `o` is not looked at (R190). -/
theorem encodeOperands_append_error {mn : Mnemonic} {w pc : Nat} {lt : LabelTable} {before : List Operand} {fs : List Bits}
    {o : Operand} {e : ErrorInfo} (hb : encodeOperands mn w pc lt before = .ok fs) (ho : encodeOperand mn w pc lt o = .error e)
    (after : List Operand) : encodeOperands mn w pc lt (before ++ o :: after) = .error e := by
  induction before generalizing fs with
  | nil => rw [List.nil_append, encodeOperands_cons, ho, andThen_error]
  | cons p rest ih =>
    rw [encodeOperands_cons] at hb
    obtain ⟨f, hf, hb⟩ := andThen_eq_ok.mp hb
    obtain ⟨gs, hg, -⟩ := andThen_eq_ok.mp hb
    rw [List.cons_append, encodeOperands_cons, hf, andThen_ok, ih hg, andThen_error]

theorem encodeInstr_of_lookup_none {T : Tables} {mn : Mnemonic} (hl : T.lookup mn = none) (ops : List Operand) (pc : Nat)
    (lt : LabelTable) : encodeInstr T mn ops pc lt = .error (.unknownOpcodeError mn.name) := by
  rw [encodeInstr, hl]

/-- Settles O34: with the right count the error of the operands is the line's. -/
theorem leftmostFailingOperandReported : Obligations.LeftmostFailingOperandReported := by
  intro T mn before after o pc lt code fs e hl hb ho
  have hcount : (before ++ o :: after).length = before.length + 1 + after.length := by
    rw [List.length_append, List.length_cons]
    omega
  exact encodeInstr_of_operands_error (hcount ▸ hl) (encodeOperands_append_error hb ho after)

/-- Settles O32: pass 2 aborts with the block's error. -/
theorem arityErrorOnWrongCount : Obligations.ArityErrorOnWrongCount :=
  ⟨fun _ _ _ pc lt _ _ hl hn => encodeInstr_of_length_ne hl hn pc lt,
   fun _ s _ _ hp ha hl hn => exec_emit hp ha (encodeInstr_of_length_ne hl hn s.pc s.lt)⟩

/-- Settles O33: the table is looked at before the operands. -/
theorem unknownMnemonicAborts : Obligations.UnknownMnemonicAborts :=
  ⟨fun _ _ ops pc lt hl => encodeInstr_of_lookup_none hl ops pc lt,
   fun _ ops _ hp ha hl => exec_extra_of_lookup_none hp ha hl ops⟩

/-! ### The lines of a source text -/

/-- The lines are those of the library's cut at each line feed (R152). -/
theorem splitLines_eq_splitOn (text : Text) : splitLines text = text.splitOn '\n' := by
  induction text with
  | nil => rfl
  | cons c cs ih =>
    rw [splitLines, List.splitOn_cons_eq_if_modifyHead, ih]
    split
    · rfl
    · cases h : cs.splitOn '\n' with
      | nil => exact absurd h (List.splitOn_ne_nil _ _)
      | cons l ls => rfl

/-- A line feed begins a new line; any other character is put before the first line, and is none (R152). -/
theorem newline_not_mem_splitLines (text : Text) : ∀ l ∈ splitLines text, '\n' ∉ l := by
  induction text with
  | nil => simp [splitLines]
  | cons c cs ih =>
    rw [splitLines_eq_splitOn, List.splitOn_cons_eq_if_modifyHead, ← splitLines_eq_splitOn]
    split
    · exact List.forall_mem_cons.mpr ⟨List.not_mem_nil, ih⟩
    · next hc =>
      have hne : '\n' ≠ c := fun h => hc (beq_iff_eq.mpr h.symm)
      cases hl : splitLines cs with
      | nil => exact fun _ h => nomatch h
      | cons l ls =>
        obtain ⟨hhead, htail⟩ := List.forall_mem_cons.mp (hl ▸ ih)
        exact List.forall_mem_cons.mpr ⟨List.not_mem_cons_of_ne_of_not_mem hne hhead, htail⟩

theorem flatten_intersperse_splitLines (text : Text) : (List.intersperse ['\n'] (splitLines text)).flatten = text := by
  rw [splitLines_eq_splitOn]
  exact List.intercalate_splitOn '\n'

/-- Settles O52: the lines are the pieces of the text between its line feeds. -/
theorem startNeedsASource : Obligations.StartNeedsASource :=
  ⟨rfl, fun text => ⟨rfl, flatten_intersperse_splitLines text, newline_not_mem_splitLines text⟩⟩

end Sys2Proof.Machine
end

section
/-! PROOFS. The reset and the hazards of spec/70_reset_and_hazards.md: the values at the two starts (R211), and that a run ends (R223). -/

namespace Sys2Proof.Machine

/-! ### The end of a run -/

theorem stepsLeft_labels {s : State} (hp : s.pass = .labels) : stepsLeft s = 2 * s.src.length + 3 - s.lineNo := by
  rw [stepsLeft, hp]

theorem stepsLeft_emit {s : State} (hp : s.pass = .emit) : stepsLeft s = s.src.length + 2 - s.lineNo := by
  rw [stepsLeft, hp]

section
variable {s : State} (inv : s.RunInv)
include inv

/-- In either pass the end of the pass is still to come (R26). -/
theorem State.RunInv.stepsLeft_pos (hp : s.pass = .labels ∨ s.pass = .emit) : 0 < stepsLeft s := by
  obtain ⟨-, hline⟩ := inv.lineRange
  obtain hp | hp := hp
  · rw [stepsLeft_labels hp]
    omega
  · rw [stepsLeft_emit hp]
    omega

/-- A move to the next line of the same pass takes one of the lines left. -/
theorem State.RunInv.stepsLeft_nextLine_lt {t : State} (hp : s.pass = .labels ∨ s.pass = .emit) (hsrc : t.src = s.src)
    (hpass : t.pass = s.pass) (hnext : t.lineNo = s.lineNo + 1) : stepsLeft t < stepsLeft s := by
  obtain ⟨-, hline⟩ := inv.lineRange
  obtain hp | hp := hp
  · rw [stepsLeft_labels (hpass.trans hp), stepsLeft_labels hp, hsrc, hnext]
    omega
  · rw [stepsLeft_emit (hpass.trans hp), stepsLeft_emit hp, hsrc, hnext]
    omega

/-- Pass 2 and its end are among the steps pass 1 leaves (R158). -/
theorem State.RunInv.stepsLeft_beginEmit_lt (hp : s.pass = .labels) : stepsLeft s.beginEmit < stepsLeft s := by
  obtain ⟨-, hline⟩ := inv.lineRange
  rw [stepsLeft_emit s.beginEmit_pass, stepsLeft_labels hp, State.beginEmit_src, State.beginEmit_lineNo]
  omega

theorem State.RunInv.stepsLeft_move_lt {t : State} (m : Move s t) : stepsLeft t < stepsLeft s := by
  cases m with
  | skip hp => exact inv.stepsLeft_nextLine_lt hp rfl rfl rfl
  | count hp | declare hp => exact inv.stepsLeft_nextLine_lt (.inl hp) rfl rfl rfl
  | emit hp => exact inv.stepsLeft_nextLine_lt (.inr hp) rfl rfl rfl
  | beginEmit hp => exact inv.stepsLeft_beginEmit_lt hp
  | abort hp => exact inv.stepsLeft_pos hp
  | finish hp => exact inv.stepsLeft_pos (.inr hp)

end

/-- Settles O57: every step is one of the moves, and each of them takes a line or a transition. -/
theorem stepsLeftDecrease : Obligations.StepsLeftDecrease :=
  ⟨fun _ _ inv h => inv.stepsLeft_move_lt (step_move h), fun src => stepsLeft_labels (State.load_pass src)⟩

/-! ### The two starts -/

/-- The one move from pass 1 to pass 2 is the transition (R24, R158). -/
theorem Move.eq_beginEmit {s t : State} (m : Move s t) (hs : s.pass = .labels) (ht : t.pass = .emit) : t = s.beginEmit := by
  cases m with
  | beginEmit => rfl
  | skip | count | declare => exact nomatch hs.symm.trans ht
  | emit hp | finish hp => exact nomatch hs.symm.trans hp
  | abort => exact nomatch ht

/-- Settles O51: the reset state is the start of a run on the empty source, and only the transition leads to pass 2. -/
theorem startOfRunAndOfPassTwo : Obligations.StartOfRunAndOfPassTwo := by
  refine ⟨fun s hs => ?_, fun s t h hs ht => (step_move h).eq_beginEmit hs ht⟩
  obtain ⟨src, rfl⟩ : ∃ src, s = State.load src := hs.elim (fun hreset => ⟨[], hreset⟩) id
  exact ⟨rfl, rfl, rfl, rfl, rfl, rfl⟩

end Sys2Proof.Machine
end
